-- ==== Sys2Proof/Word.lean ====
section
/-! DEFINITION. The word types of the block: indices, bytes, bus words, register addresses and bit strings (spec/00_scope.md R10, R11). -/

namespace Sys2Proof

/-- A WordIndex, 0..2047 (R7 `IDX_W`, R24). -/
abbrev Idx := BitVec 11

/-- A byte of the bit-string store, of the byte buffer, or a checksum (R26, R30, R32). -/
abbrev Byte := BitVec 8

/-- What one host bus transaction carries, and one command word (R51, R70). -/
abbrev Word16 := BitVec 16

/-- An address of the register space (R50). -/
abbrev Addr := BitVec 8

/-- A bit string; position 0 comes first and is the most significant bit (R11). -/
abbrev BitString := List Bool

end Sys2Proof
end

