-- ==== Sys2Proof/Syntax.lean ====
section
/-! DEFINITION. The commands of the block, one constructor per row of spec/opcode_table.json (spec/30_encoding.md R72). -/

namespace Sys2Proof

/-- A decoded command. `t` is the tail immediate T (R74) and `d` the destination register number D (R75);
every other operand is implicit. -/
inductive Instr where
  | pack
  | unpack
  | tobytes
  | split
  | append3 (t : BitVec 3)
  | join (d : BitVec 5) (t : BitVec 3)
  | csum
  | verify
  deriving DecidableEq, Repr

end Sys2Proof
end

