-- ==== Sys2Proof/WellFormed.lean ====
section
/-! DEFINITION. Which commands name only registers that exist (spec/30_encoding.md R75). -/

namespace Sys2Proof

/-- "Only 0..23 name a register" (R75). The field widths are in the types, so JOIN's D is the one operand that can
name nothing; such a JOIN still decodes and encodes, and faults E_RANGE when performed (R73, R111). -/
def Instr.wellFormed : Instr → Bool
  | .pack => true
  | .unpack => true
  | .tobytes => true
  | .split => true
  | .append3 _ => true
  | .join d _ => d.toNat < 24
  | .csum => true
  | .verify => true

end Sys2Proof
end

