-- ==== Sys2Proof/Decode.lean ====
section
/-! DEFINITION. Decoding a 16-bit command word, total and rejecting by name (spec/30_encoding.md R70 to R76), and the encoder written from the same table. -/

namespace Sys2Proof

/-- Why a command word is no command (R73, R76). The block records the reason as the fault of the same name. -/
inductive DecodeError where
  /-- The opcode is reserved: 0x0, 0x7 or 0xA..0xF. -/
  | eOpcode
  /-- A reserved bit is set, or an unused T or D field is not zero. -/
  | eField
  deriving DecidableEq, Repr

/-- Field OP, bits 3:0 (R71). -/
def opField (w : Word16) : BitVec 4 := w.extractLsb' 0 4
/-- Field T, bits 6:4 (R71). -/
def tField (w : Word16) : BitVec 3 := w.extractLsb' 4 3
/-- The reserved bit 7 (R71). -/
def reservedLow (w : Word16) : BitVec 1 := w.extractLsb' 7 1
/-- Field D, bits 12:8 (R71). -/
def dField (w : Word16) : BitVec 5 := w.extractLsb' 8 5
/-- The reserved bits 15:13 (R71). -/
def reservedHigh (w : Word16) : BitVec 3 := w.extractLsb' 13 3

/-- The command that opcode `op` selects, with the operands it uses (R72); none for a reserved opcode. -/
def select (op : BitVec 4) (t : BitVec 3) (d : BitVec 5) : Option Instr :=
  match op.toNat with
  | 0x1 => some .pack
  | 0x2 => some .unpack
  | 0x3 => some .tobytes
  | 0x4 => some .split
  | 0x5 => some (.append3 t)
  | 0x6 => some (.join d t)
  | 0x8 => some .csum
  | 0x9 => some .verify
  | _ => none

/-- R72, column "uses T". -/
def Instr.usesT : Instr → Bool
  | .append3 _ => true
  | .join _ _ => true
  | .pack | .unpack | .tobytes | .split | .csum | .verify => false

/-- R72, column "uses D". -/
def Instr.usesD : Instr → Bool
  | .join _ _ => true
  | .pack | .unpack | .tobytes | .split | .append3 _ | .csum | .verify => false

/-- R73: the opcode is checked first, then the reserved bits, then the fields the command does not use. -/
def decode (w : Word16) : Except DecodeError Instr :=
  match select (opField w) (tField w) (dField w) with
  | none => .error .eOpcode
  | some i =>
    if reservedHigh w ≠ 0 ∨ reservedLow w ≠ 0 then .error .eField
    else if i.usesT = false ∧ tField w ≠ 0 then .error .eField
    else if i.usesD = false ∧ dField w ≠ 0 then .error .eField
    else .ok i

/-- The opcode of R72. -/
def Instr.opcode : Instr → BitVec 4
  | .pack => 0x1
  | .unpack => 0x2
  | .tobytes => 0x3
  | .split => 0x4
  | .append3 _ => 0x5
  | .join _ _ => 0x6
  | .csum => 0x8
  | .verify => 0x9

/-- The T field of a command, zero where it is not used (R71). -/
def Instr.tBits : Instr → BitVec 3
  | .append3 t => t
  | .join _ t => t
  | .pack | .unpack | .tobytes | .split | .csum | .verify => 0

/-- The D field of a command, zero where it is not used (R71). -/
def Instr.dBits : Instr → BitVec 5
  | .join d _ => d
  | .pack | .unpack | .tobytes | .split | .append3 _ | .csum | .verify => 0

/-- The command word, laid out as the pattern of R71: `rrrDDDDDrTTTOOOO`, the reserved bits zero. -/
def encode (i : Instr) : Word16 :=
  (0#3 ++ i.dBits ++ 0#1 ++ i.tBits ++ i.opcode : BitVec (3 + 5 + 1 + 3 + 4))

/-- What this decoder reads from an opcode-table word of `nbits` bits: every bit above `nbits` is zero, and a command
is one 16-bit word (R70). -/
def decodeTableWord (nbits w : Nat) : Option Instr :=
  match decode (BitVec.ofNat 16 (w % 2 ^ nbits)) with
  | .ok i => some i
  | .error _ => none

/-- One row of the table of words in R72: a word selects the row's command when `word &&& mask = pattern`. -/
structure OpcodeRow where
  mnemonic : String
  pattern : Word16
  mask : Word16
  deriving DecidableEq, Repr

/-- The words that select each command (R72). -/
def opcodeTable : List OpcodeRow :=
  [ ⟨"PACK", 0x0001, 0xFFFF⟩,
    ⟨"UNPACK", 0x0002, 0xFFFF⟩,
    ⟨"TOBYTES", 0x0003, 0xFFFF⟩,
    ⟨"SPLIT", 0x0004, 0xFFFF⟩,
    ⟨"APPEND3", 0x0005, 0xFF8F⟩,
    ⟨"JOIN", 0x0006, 0xE08F⟩,
    ⟨"CSUM", 0x0008, 0xFFFF⟩,
    ⟨"VERIFY", 0x0009, 0xFFFF⟩ ]

/-- The mnemonic of a command (R72). -/
def Instr.mnemonic : Instr → String
  | .pack => "PACK"
  | .unpack => "UNPACK"
  | .tobytes => "TOBYTES"
  | .split => "SPLIT"
  | .append3 _ => "APPEND3"
  | .join _ _ => "JOIN"
  | .csum => "CSUM"
  | .verify => "VERIFY"

/-- A word selects a row of R72. -/
def OpcodeRow.selects (r : OpcodeRow) (w : Word16) : Bool := w &&& r.mask == r.pattern

end Sys2Proof
end

