-- ==== Sys2Proof/Config.lean ====
section
/-! DEFINITION. What is fixed for the machine: the parameters of spec/00_scope.md R7 and the open function `SHA256_32` of R9. -/

namespace Sys2Proof.Config

/-- R7 `IDX_W`: width of a WordIndex in bits. -/
@[simp] abbrev idxW : Nat := 11
/-- R7 `IDX_MAX`: largest WordIndex. -/
@[simp] abbrev idxMax : Nat := 2047
/-- R7 `MAX_IDX`: index registers in the block, the largest sequence PACK accepts (also `N_WORDS`, the words of a mnemonic). -/
@[simp] abbrev maxIdx : Nat := 24
/-- R7 `BITS_CAP`: capacity of the bit-string store in bits. -/
@[simp] abbrev bitsCap : Nat := 264
/-- R7 `BUF_CAP`: capacity of the byte buffer, and of the store, in bytes. -/
@[simp] abbrev bufCap : Nat := 33
/-- R7 `ENT_BITS`: entropy bits. -/
@[simp] abbrev entBits : Nat := 256
/-- R7 `ENT_BYTES`: entropy bytes given to SHA-256. -/
@[simp] abbrev entBytes : Nat := 32
/-- R7 `CS_BITS`: checksum bits. -/
@[simp] abbrev csBits : Nat := 8
/-- R7 `TAIL_BITS`: entropy bits carried by the 24th index. -/
@[simp] abbrev tailBits : Nat := 3
/-- R7 `PREFIX_BITS`: bits packed from 23 indices. -/
@[simp] abbrev prefixBits : Nat := 253
/-- R7 `FULL_BITS`: bits packed from 24 indices. -/
@[simp] abbrev fullBits : Nat := 264

/-- R9 `SHA256_32`, the block's one open parameter: 32 entropy bytes to the 32 digest bytes, digest byte 0 first.
It has no body: nothing can evaluate it, and a claim holds whatever function of its argument it is (log entry 2). -/
opaque sha256_32 : Vector Byte 32 → Vector Byte 32

end Sys2Proof.Config
end

