-- ==== Sys2Proof/Machine/Bits.lean ====
section
/-! DEFINITION. Bit strings and the bytes and indices they hold (spec/00_scope.md R10 to R13, spec/20_memory.md R56). -/

namespace Sys2Proof.Machine

/-- `ceil_div(x, y)`: the least integer that is at least x / y (R13). -/
def ceilDiv (x y : Nat) : Nat := (x + y - 1) / y

/-- `bin_w(v)`: the w-bit big-endian string of v; position j is bit w-1-j of v (R11). -/
def bin (w v : Nat) : BitString := (List.range w).map fun j => v.testBit (w - 1 - j)

/-- `val(s)`: the unsigned value of a string, its first bit the most significant (R11). -/
def val : BitString → Nat
  | [] => 0
  | b :: s => b.toNat * 2 ^ s.length + val s

/-- `zeros(k)` (R11). -/
def zeros (k : Nat) : BitString := List.replicate k false

/-- `s<a..b>`: positions a to b inclusive (R11). -/
def substr (s : BitString) (a b : Nat) : BitString := (s.drop a).take (b + 1 - a)

/-- `bytes_to_bits(B)` (R12). -/
def bytesToBits (bs : List Byte) : BitString := bs.flatMap fun b => bin 8 b.toNat

/-- `val(s<8k..8k+7>)` as the byte it is (R12). -/
def byteOf (s : BitString) (k : Nat) : Byte := BitVec.ofNat 8 (val (substr s (8 * k) (8 * k + 7)))

/-- `to_bytes(s)`, for a length that is a multiple of 8 (R12). -/
def toBytes (s : BitString) : List Byte := (List.range (s.length / 8)).map (byteOf s)

/-- `val(s<11i..11i+10>)` as the index it is (R103). -/
def indexOf (s : BitString) (i : Nat) : Idx := BitVec.ofNat 11 (val (substr s (11 * i) (11 * i + 10)))

/-- `bin_11(IDX[0]) ‖ ... ‖ bin_11(IDX[n-1])` (R101). -/
def packIndices (xs : List Idx) : BitString := xs.flatMap fun x => bin 11 x.toNat

/-- The values of a list of elements, if every one of them is written (R13 `defined`). -/
def gather {α : Type} : List (Option α) → Option (List α)
  | [] => some []
  | none :: _ => none
  | some x :: rest =>
    match gather rest with
    | none => none
    | some xs => some (x :: xs)

/-- The register file of n elements whose element k is `f k`. -/
def tabulate {α : Type} (n : Nat) (f : Nat → α) : Vector α n := ⟨⟨(List.range n).map f⟩, by simp⟩

end Sys2Proof.Machine
end

