-- ==== Sys2Proof/Machine/State.lean ====
section
/-! DEFINITION. The state of the block and of the host's side of its bus, its reset value, and the reasons a step can stop (spec/10_state.md). -/

namespace Sys2Proof.Machine

/-- The fault codes held in STATUS.FCODE (R161). Codes 8..15 are reserved and never written. -/
inductive FaultCode where
  /-- 0: no fault since reset. -/
  | none
  /-- 1: CMD word with a reserved opcode. -/
  | eOpcode
  /-- 2: CMD word with a reserved bit set, or an unused field not zero. -/
  | eField
  /-- 3: JOIN with D above 23, or a JOIN index above 2047. -/
  | eRange
  /-- 4: a length operand that the command does not accept. -/
  | eLength
  /-- 5: a command read an unwritten data register element. -/
  | eUninit
  /-- 6: host access to a reserved address, or host write to CS or STATUS. -/
  | eHostAddr
  /-- 7: host write with a bit set above the register's width. -/
  | eHostVal
  deriving DecidableEq, Repr

/-- STATUS (R34). Its bits 3:2 and 15:8 are hard-wired to zero and need no storage; `Status.word` gives the 16 bits. -/
structure Status where
  /-- MATCH: result of the last VERIFY (R35). -/
  matched : Bool
  /-- FAULT: a fault has been raised since reset (R36). -/
  fault : Bool
  /-- FCODE: code of the first fault since reset (R36, R161). -/
  fcode : FaultCode
  deriving DecidableEq, Repr

/-- The registers that an address of the register space can name (R55). -/
inductive Reg where
  | idx (i : Fin 24)
  | nidx
  | blen
  | buflen
  | cs
  | claim
  | status
  | cmd
  | bitb (k : Fin 33)
  | buf (k : Fin 33)
  deriving DecidableEq, Repr

/-- What the host can do to the block: the two bus transactions of R51, and the reset signal of R190. -/
inductive HostEvent where
  | read (a : Addr)
  | write (a : Addr) (v : Word16)
  | reset
  deriving DecidableEq, Repr

/-- Everything the spec gives the block (R24 to R38), and the host's side of the bus.
A data register element is `none` while it is unwritten: R21, "A Lean model represents each data element as an
`Option` of its width". CMD has no storage (R37, log entry 5). -/
structure State where
  /-- IDX0..IDX23 (R24). -/
  idx : Vector (Option Idx) 24
  /-- NIDX (R25). -/
  nidx : BitVec 5
  /-- BITB0..BITB32, the bit-string store (R26). -/
  bitb : Vector (Option Byte) 33
  /-- BLEN (R27). -/
  blen : BitVec 9
  /-- BUF0..BUF32, the byte buffer (R30). -/
  buf : Vector (Option Byte) 33
  /-- BUFLEN (R31). -/
  buflen : BitVec 6
  /-- CS (R32). -/
  cs : Option Byte
  /-- CLAIM (R33). -/
  claim : Option Byte
  /-- STATUS (R34). -/
  status : Status
  /-- The model's own field: what the host has still to do, the next event first (R22, R51, log entry 3). -/
  pending : List HostEvent
  /-- The model's own field: what the host's reads answered, the newest first; `none` is R52's "no value" (log entry 4). -/
  reads : List (Option Word16)
  deriving DecidableEq, Repr

/-- The reset values of R38: control registers zero, STATUS 0x0000, every data register element unwritten.
The model's own two fields are empty: no program is invented (log entries 3 and 4). -/
def State.reset : State where
  idx := Vector.replicate 24 Option.none
  nidx := 0
  bitb := Vector.replicate 33 Option.none
  blen := 0
  buf := Vector.replicate 33 Option.none
  buflen := 0
  cs := Option.none
  claim := Option.none
  status := { matched := false, fault := false, fcode := FaultCode.none }
  pending := []
  reads := []

/-- The reasons a step stops the machine: there are none. A fault of the block is a record in STATUS and the machine
goes on (R160, R163, and R164: "A model must treat a faulted state as never final"), so no constructor is needed and
no step answers one. Safe: nothing is left out (log entry 8). -/
inductive Fault
  deriving DecidableEq, Repr

/-- The reasons the model gives an instruction no meaning. -/
inductive Refusal where
  /-- An instruction that has no meaning in the model; raised by no arm, since every command has its meaning. Safe: a
  refusal proves nothing. -/
  | notModelled (mnemonic : String)
  deriving DecidableEq, Repr

/-- What a step of this block answers. -/
abbrev Outcome := Host.Outcome State Fault Refusal

end Sys2Proof.Machine
end

