-- ==== Sys2Proof/Machine/Flags.lean ====
section
/-! DEFINITION. STATUS: its fault codes, its 16-bit word and its one condition flag MATCH (spec/10_state.md R34 to R36, spec/60_exceptions.md R161). -/

namespace Sys2Proof.Machine

/-- The number of a fault code (R161). -/
def FaultCode.code : FaultCode → BitVec 4
  | .none => 0
  | .eOpcode => 1
  | .eField => 2
  | .eRange => 3
  | .eLength => 4
  | .eUninit => 5
  | .eHostAddr => 6
  | .eHostVal => 7

/-- STATUS as the host reads it: FCODE in bits 7:4, FAULT in bit 1, MATCH in bit 0, every other bit hard-wired to
zero (R34). -/
def Status.word (st : Status) : Word16 :=
  (0#8 ++ st.fcode.code ++ 0#2 ++ BitVec.ofBool st.fault ++ BitVec.ofBool st.matched : BitVec (8 + 4 + 2 + 1 + 1))

/-- `(c == CLAIM) ? 1 : 0`, compared as 8-bit values (R143). -/
def matchFlag (c claim : Byte) : Bool := c == claim

/-- `STATUS.MATCH <- m`; FAULT and FCODE stay (R35, R143). -/
def State.setMatch (m : Bool) (s : State) : State := { s with status := { s.status with matched := m } }

end Sys2Proof.Machine
end

