-- ==== Sys2Proof/Machine/Ops.lean ====
section
/-! DEFINITION. The operations every command and host access is made of: raising a fault, reset, reading and writing a register, loading and storing the bit string. -/

namespace Sys2Proof.Machine

/-! ## Faults -/

/-- `raise Fault(code)`, the fault entry of R163: STATUS.FAULT and STATUS.FCODE are written if no fault stands yet, and
nothing else is. There is no vector, no saved state and no return (R160, R167). -/
def raise (c : FaultCode) (s : State) : State :=
  if s.status.fault then s else { s with status := { s.status with fault := true, fcode := c } }

/-- How a command ends (R13): its writes take effect only if it completes without a raise. -/
def finish (s : State) (r : Except FaultCode State) : Outcome :=
  match r with
  | .ok t => .next t
  | .error c => .next (raise c s)

/-- The reset signal (R190): every register of the block gets its R38 value at once. The host's own two lists are not
the block's and stay (log entry 10). -/
def resetBlock (s : State) : State := { State.reset with pending := s.pending, reads := s.reads }

/-! ## The register map -/

/-- The address of CMD (R55). -/
def cmdAddr : Addr := 0x1F

/-- The register an address names; none for a reserved address (R55). -/
def regAt (a : Addr) : Option Reg :=
  if h : a.toNat < 0x18 then some (.idx ⟨a.toNat, h⟩)
  else if a = 0x18 then some .nidx
  else if a = 0x19 then some .blen
  else if a = 0x1A then some .buflen
  else if a = 0x1B then some .cs
  else if a = 0x1C then some .claim
  else if a = 0x1D then some .status
  else if a = 0x1F then some .cmd
  else if h : 0x20 ≤ a.toNat ∧ a.toNat < 0x41 then some (.bitb ⟨a.toNat - 0x20, by omega⟩)
  else if h : 0x48 ≤ a.toNat ∧ a.toNat < 0x69 then some (.buf ⟨a.toNat - 0x48, by omega⟩)
  else none

/-- The address of a register (R55, R77 "address of reg"). -/
def addrOf : Reg → Addr
  | .idx i => BitVec.ofNat 8 i.val
  | .nidx => 0x18
  | .blen => 0x19
  | .buflen => 0x1A
  | .cs => 0x1B
  | .claim => 0x1C
  | .status => 0x1D
  | .cmd => cmdAddr
  | .bitb k => BitVec.ofNat 8 (0x20 + k.val)
  | .buf k => BitVec.ofNat 8 (0x48 + k.val)

/-- The width column of R55. -/
def Reg.width : Reg → Nat
  | .idx _ => 11
  | .nidx => 5
  | .blen => 9
  | .buflen => 6
  | .cs => 8
  | .claim => 8
  | .status => 16
  | .cmd => 16
  | .bitb _ => 8
  | .buf _ => 8

/-- The host-access column of R55: a host write to CS or STATUS is refused (R53). -/
def Reg.hostReadOnly : Reg → Bool
  | .cs | .status => true
  | .idx _ | .nidx | .blen | .buflen | .claim | .cmd | .bitb _ | .buf _ => false

/-- The field of a register zero-extended to 16 bits; none where the element is unwritten (R52). CMD reads 0x0000 (R37). -/
def readReg (r : Reg) (s : State) : Option Word16 :=
  match r with
  | .idx i => (s.idx[i]).map (BitVec.setWidth 16)
  | .nidx => some (s.nidx.setWidth 16)
  | .blen => some (s.blen.setWidth 16)
  | .buflen => some (s.buflen.setWidth 16)
  | .cs => s.cs.map (BitVec.setWidth 16)
  | .claim => s.claim.map (BitVec.setWidth 16)
  | .status => some s.status.word
  | .cmd => some 0x0000
  | .bitb k => (s.bitb[k]).map (BitVec.setWidth 16)
  | .buf k => (s.buf[k]).map (BitVec.setWidth 16)

/-- `r <- v[w-1:0]`, a data element becoming written (R53). CS and STATUS are never written by the host, and CMD stores
nothing (R37): those three leave the state as it is. -/
def writeReg (r : Reg) (v : Word16) (s : State) : State :=
  match r with
  | .idx i => { s with idx := s.idx.set i (some (v.setWidth 11)) }
  | .nidx => { s with nidx := v.setWidth 5 }
  | .blen => { s with blen := v.setWidth 9 }
  | .buflen => { s with buflen := v.setWidth 6 }
  | .claim => { s with claim := some (v.setWidth 8) }
  | .bitb k => { s with bitb := s.bitb.set k (some (v.setWidth 8)) }
  | .buf k => { s with buf := s.buf.set k (some (v.setWidth 8)) }
  | .cs | .status | .cmd => s

/-! ## The bit-string store -/

/-- `load()` of R100: the stored bit string, every byte it covers being written; bits at positions >= BLEN are not read. -/
def load (s : State) : Except FaultCode BitString :=
  if Config.bitsCap < s.blen.toNat then .error .eLength
  else
    match gather (s.bitb.toList.take (ceilDiv s.blen.toNat 8)) with
    | none => .error .eUninit
    | some bs => .ok ((bytesToBits bs).take s.blen.toNat)

/-- `store(b)` of R100: all 33 bytes are written, with zero bits after the string, and BLEN becomes its length. -/
def store (b : BitString) (s : State) : State :=
  { s with
    bitb := tabulate 33 fun k => some (byteOf (b ++ zeros (Config.bitsCap - b.length)) k)
    blen := BitVec.ofNat 9 b.length }

end Sys2Proof.Machine
end

