-- ==== Sys2Proof/Machine/Operands.lean ====
section
/-! DEFINITION. Operand forms: the indices and entropy bytes a command reads, the tail immediate and the destination register number (spec/30_encoding.md R74, R75). -/

namespace Sys2Proof.Machine

/-- IDX0..IDX(n-1), if all of them are written (R101). -/
def readIndices (n : Nat) (s : State) : Except FaultCode (List Idx) :=
  match gather (s.idx.toList.take n) with
  | none => .error .eUninit
  | some xs => .ok xs

/-- BUF0..BUF31, if BUFLEN is 32 and all of them are written; the length is checked first (R141, R143). -/
def readEntropy (s : State) : Except FaultCode (List Byte) :=
  if s.buflen.toNat ≠ Config.entBytes then .error .eLength
  else
    match gather (s.buf.toList.take Config.entBytes) with
    | none => .error .eUninit
    | some bs => .ok bs

/-- `bin_3(T)` (R74, R109). -/
def tailString (t : BitVec 3) : BitString := bin Config.tailBits t.toNat

/-- The IDX register that D names; none for 24..31 (R75). -/
def destReg (d : BitVec 5) : Option (Fin 24) := if h : d.toNat < 24 then some ⟨d.toNat, h⟩ else none

/-- `T * 256 + CS` (R111). -/
def joinIndex (t : BitVec 3) (c : Byte) : Nat := t.toNat * 256 + c.toNat

end Sys2Proof.Machine
end

