-- ==== Sys2Proof/Machine/BitPacker.lean ====
section
/-! DEFINITION. The BitPacker commands PACK, UNPACK, TOBYTES, SPLIT, APPEND3 and JOIN (spec/41_bitpacker.md). -/

namespace Sys2Proof.Machine

/-- PACK (R101). -/
def execPack (s : State) : Outcome :=
  finish s <|
    if Config.maxIdx < s.nidx.toNat then .error .eLength
    else
      match readIndices s.nidx.toNat s with
      | .error c => .error c
      | .ok xs => .ok (store (packIndices xs) s)

/-- UNPACK (R103). IDX registers at or above the count are unchanged. -/
def execUnpack (s : State) : Outcome :=
  finish s <|
    if Config.bitsCap < s.blen.toNat ∨ s.blen.toNat % Config.idxW ≠ 0 then .error .eLength
    else
      match load s with
      | .error c => .error c
      | .ok b =>
        let n := s.blen.toNat / Config.idxW
        .ok { s with
          idx := tabulate 24 fun i => if i < n then some (indexOf b i) else s.idx.toList.getD i none
          nidx := BitVec.ofNat 5 n }

/-- TOBYTES (R105). All 33 bytes are written, with zero bytes after the string's. -/
def execTobytes (s : State) : Outcome :=
  finish s <|
    if Config.bitsCap < s.blen.toNat then .error .eLength
    else
      match load s with
      | .error c => .error c
      | .ok b =>
        let m := ceilDiv s.blen.toNat 8
        let p := b ++ zeros (8 * m - s.blen.toNat)
        .ok { s with
          buf := tabulate 33 fun k => some (if k < m then byteOf p k else 0)
          buflen := BitVec.ofNat 6 m }

/-- SPLIT (R107). -/
def execSplit (s : State) : Outcome :=
  finish s <|
    if s.blen.toNat ≠ Config.fullBits then .error .eLength
    else
      match load s with
      | .error c => .error c
      | .ok b => .ok (store (substr b 0 255) { s with claim := some (BitVec.ofNat 8 (val (substr b 256 263))) })

/-- APPEND3 #t (R109). -/
def execAppend3 (t : BitVec 3) (s : State) : Outcome :=
  finish s <|
    if s.blen.toNat ≠ Config.prefixBits then .error .eLength
    else
      match load s with
      | .error c => .error c
      | .ok b => .ok (store (b ++ tailString t) s)

/-- JOIN IDXd, #t (R111). The second range check can never fire; it is kept because the spec keeps it. -/
def execJoin (d : BitVec 5) (t : BitVec 3) (s : State) : Outcome :=
  finish s <|
    match destReg d with
    | none => .error .eRange
    | some i =>
      match s.cs with
      | none => .error .eUninit
      | some c =>
        let v := joinIndex t c
        if Config.idxMax < v then .error .eRange
        else .ok { s with idx := s.idx.set i (some (BitVec.ofNat 11 v)) }

end Sys2Proof.Machine
end

