-- ==== Sys2Proof/Machine/ChecksumEngine.lean ====
section
/-! DEFINITION. The ChecksumEngine commands CSUM and VERIFY over the open function `SHA256_32` (spec/42_checksum.md). -/

namespace Sys2Proof.Machine

/-- The 32-byte argument of `SHA256_32`, byte 0 first (R9, R30). -/
def entropyVector (bs : List Byte) : Vector Byte 32 := tabulate 32 fun k => bs.getD k 0

/-- `checksum(b) = SHA256_32(b)[0]` (R140). -/
def checksum (bs : List Byte) : Byte := (Config.sha256_32 (entropyVector bs))[0]

/-- CSUM (R141). -/
def execCsum (s : State) : Outcome :=
  finish s <|
    match readEntropy s with
    | .error c => .error c
    | .ok bs => .ok { s with cs := some (checksum bs) }

/-- VERIFY (R143). CLAIM is checked after the buffer, and MATCH is written only if no check fails. -/
def execVerify (s : State) : Outcome :=
  finish s <|
    match readEntropy s with
    | .error c => .error c
    | .ok bs =>
      match s.claim with
      | none => .error .eUninit
      | some claim => .ok (State.setMatch (matchFlag (checksum bs) claim) { s with cs := some (checksum bs) })

end Sys2Proof.Machine
end

