-- ==== Sys2Proof/Machine/Dispatch.lean ====
section
/-! DEFINITION. The one dispatch from a command to its meaning (spec/30_encoding.md R73). -/

namespace Sys2Proof.Machine

def exec (i : Instr) (s : State) : Host.Outcome State Fault Refusal :=
  match i with
  | .pack => Sys2Proof.Machine.execPack s
  | .unpack => Sys2Proof.Machine.execUnpack s
  | .tobytes => Sys2Proof.Machine.execTobytes s
  | .split => Sys2Proof.Machine.execSplit s
  | .append3 t => Sys2Proof.Machine.execAppend3 t s
  | .join d t => Sys2Proof.Machine.execJoin d t s
  | .csum => Sys2Proof.Machine.execCsum s
  | .verify => Sys2Proof.Machine.execVerify s

end Sys2Proof.Machine
end

