-- ==== Sys2Proof/Machine/Bus.lean ====
section
/-! DEFINITION. The host's bus transactions and the reset signal (spec/20_memory.md R51 to R54, spec/70_reset_and_hazards.md R190). -/

namespace Sys2Proof.Machine

/-- What HostRead(a) returns; none is R52's "no value": a reserved address, or an unwritten element. -/
def readResult (a : Addr) (s : State) : Option Word16 :=
  match regAt a with
  | none => none
  | some r => readReg r s

/-- HostRead(a) (R52). A reserved address raises E_HOSTADDR, which `raise` drops while FAULT = 1. -/
def hostRead (a : Addr) (s : State) : State :=
  let t := match regAt a with
    | none => raise .eHostAddr s
    | some _ => s
  { t with reads := readResult a s :: t.reads }

/-- HostWrite(a, v) for an address other than CMD (R53), with the order of checks of R166. -/
def hostWriteReg (a : Addr) (v : Word16) (s : State) : State :=
  if s.status.fault then s
  else
    match regAt a with
    | none => raise .eHostAddr s
    | some r =>
      if r.hostReadOnly then raise .eHostAddr s
      else if v >>> r.width ≠ 0 then raise .eHostVal s
      else writeReg r v s

/-- The fault that a decoding error raises (R73, R161). -/
def decodeFault : DecodeError → FaultCode
  | .eOpcode => .eOpcode
  | .eField => .eField

/-- HostWrite(CMD, v) (R54): dropped while FAULT = 1; else decoded and performed to completion. -/
def hostWriteCmd (v : Word16) (s : State) : Outcome :=
  if s.status.fault then .next s
  else
    match decode v with
    | .error e => .next (raise (decodeFault e) s)
    | .ok i => exec i s

/-- One event of the host (R51, R190). -/
def hostEvent (e : HostEvent) (s : State) : Outcome :=
  match e with
  | .read a => .next (hostRead a s)
  | .write a v => if a = cmdAddr then hostWriteCmd v s else .next (hostWriteReg a v s)
  | .reset => .next (resetBlock s)

/-- The host's next event taken off its list and performed. With nothing pending the block does nothing, since it takes
no step of its own (R22, log entry 7). -/
def hostStep (s : State) : Outcome :=
  match s.pending with
  | [] => .next s
  | e :: rest => hostEvent e { s with pending := rest }

/-- The CMD write that runs an opcode-table word of `nbits` bits; every bit above `nbits` is zero. -/
def cmdWrite (nbits w : Nat) : HostEvent := .write cmdAddr (BitVec.ofNat 16 (w % 2 ^ nbits))

end Sys2Proof.Machine
end

