-- ==== Sys2Proof/Machine/Step.lean ====
section
/-! DEFINITION. One step: one event of the host (spec/10_state.md R22), and how a command word is placed so that the next step runs it. -/

namespace Sys2Proof.Machine

/-- One step of the machine: the host's next bus transaction or reset (R22, R51). -/
def step (s : State) : Host.Outcome State Fault Refusal := hostStep s

/-- The block fetches nothing: a command word arrives as the data of a host write to CMD (R66). So the word is placed as
the host's next transaction, in front of whatever else is pending, and nothing else changes (log entry 3). -/
def State.withFetchWord (s : State) (nbits w : Nat) : State := { s with pending := cmdWrite nbits w :: s.pending }

end Sys2Proof.Machine
end

