-- ==== Sys2Proof/Machine/Pseudo.lean ====
section
/-! DEFINITION. The assembler's statements and pseudo-instructions, as the host transactions they expand to (spec/30_encoding.md R77, R78). -/

namespace Sys2Proof.Machine

/-- A command statement: `HostWrite(CMD, word)` (R77). -/
def command (i : Instr) : HostEvent := .write cmdAddr (encode i)

/-- `WR reg, value` (R77). -/
def wr (r : Reg) (v : Word16) : HostEvent := .write (addrOf r) v

/-- `RD reg` (R77); the result is the newest entry of `reads`. -/
def rd (r : Reg) : HostEvent := .read (addrOf r)

/-- `LOADIDX v0, ..., v(n-1)` (R78), whose precondition is n <= 24; each value is at most 2047 by its type. -/
def loadIdx (vs : List Idx) : Option (List HostEvent) :=
  if vs.length ≤ Config.maxIdx then
    some (vs.zipIdx.map (fun p => .write (BitVec.ofNat 8 p.2) (p.1.setWidth 16)) ++
      [wr .nidx (BitVec.ofNat 16 vs.length)])
  else none

/-- `VALIDATE` (R78). -/
def validate : List HostEvent :=
  [wr .nidx 24, command .pack, command .split, command .tobytes, command .verify]

/-- `CANDIDATE #t` (R78). -/
def candidate (t : BitVec 3) : List HostEvent :=
  [wr .nidx 23, command .pack, command (.append3 t), command .tobytes, command .csum, command (.join 23 t)]

/-- A command as the assembler writes it (R77). -/
def asm : Instr → String
  | .pack => "PACK"
  | .unpack => "UNPACK"
  | .tobytes => "TOBYTES"
  | .split => "SPLIT"
  | .append3 t => "APPEND3 #" ++ toString t.toNat
  | .join d t => "JOIN IDX" ++ toString d.toNat ++ ", #" ++ toString t.toNat
  | .csum => "CSUM"
  | .verify => "VERIFY"

end Sys2Proof.Machine
end

