-- ==== Sys2Proof/Safety.lean ====
section
/-! DEFINITION. The terms claims are stated in: a correct run, the invariant of the registers, when a command's operands are in place, what it reads and what it overwrites (spec/10_state.md, spec/60_exceptions.md R172, spec/70_reset_and_hazards.md R192, R194). -/

namespace Sys2Proof.Machine

/-! ## Runs -/

/-- The host's run has ended: it has no transaction left (R172). -/
def State.ended (s : State) : Prop := s.pending = []

/-- A run is correct only if FAULT = 0 when its last transaction has completed (R172). -/
def State.correctEnd (s : State) : Prop := s.ended ∧ s.status.fault = false

/-- `k` steps from `s` all complete and end in `t`. -/
def runsTo (k : Nat) (s t : State) : Prop := Host.Core.run Sys2Proof.core k s = .next t

/-- VALIDATE, run by a host from `s` with `x` in IDX23, completes without a fault and ends with MATCH = 1 (R145, R146). -/
def validates (s : State) (x : Idx) : Prop :=
  ∃ u, runsTo 5 { s with idx := s.idx.set 23 (some x), pending := validate } u ∧ u.correctEnd ∧
    u.status.matched = true

/-- FCODE is 0 exactly when FAULT = 0 (R34, R36), and MATCH = 1 only after a VERIFY, which also writes CS (R35, R143).
An inference from those rules (log entry 13). -/
def State.Inv (s : State) : Prop :=
  (s.status.fault = false ↔ s.status.fcode = .none) ∧ (s.status.matched = true → s.cs.isSome = true)

/-! ## What is written -/

/-- Bit p of a 33-byte register file: bit 7 - (p mod 8) of byte p div 8 (R12, R26); none where that byte is unwritten
or beyond the file. -/
def fileBit (f : Vector (Option Byte) 33) (p : Nat) : Option Bool :=
  match f.toList[p / 8]? with
  | some (some b) => some (b.getLsbD (7 - p % 8))
  | some none => none
  | none => none

/-- IDX0..IDX(n-1) are written. -/
abbrev State.indicesWritten (n : Nat) (s : State) : Prop := ∀ (i : Nat) (h : i < 24), i < n → (s.idx[i]).isSome = true

/-- BITB0..BITB(ceil_div(BLEN, 8) - 1), the bytes the string reaches into, are written (R28). -/
abbrev State.storeWritten (s : State) : Prop :=
  ∀ (k : Nat) (h : k < 33), 8 * k < s.blen.toNat → (s.bitb[k]).isSome = true

/-- BUF0..BUF31 are written. -/
abbrev State.entropyWritten (s : State) : Prop := ∀ (k : Nat) (h : k < 33), k < 32 → (s.buf[k]).isSome = true

/-- The value of IDXi, 0 where it is unwritten or does not exist; used in claims that assume it written. -/
def State.idxVal (s : State) (i : Nat) : Idx := (s.idx.toList.getD i none).getD 0

/-- BUF0..BUF31 as the 32 bytes given to `SHA256_32`; used in claims that assume them written. -/
def State.entropyBytes (s : State) : Vector Byte 32 := tabulate 32 fun k => (s.buf.toList.getD k none).getD 0

/-- The operands of a command are in place (the table of R192; JOIN's D must also name a register, R111). -/
def ready (i : Instr) (s : State) : Prop :=
  match i with
  | .pack => s.nidx.toNat ≤ 24 ∧ s.indicesWritten s.nidx.toNat
  | .unpack => s.blen.toNat ≤ 264 ∧ s.blen.toNat % 11 = 0 ∧ s.storeWritten
  | .tobytes => s.blen.toNat ≤ 264 ∧ s.storeWritten
  | .split => s.blen.toNat = 264 ∧ s.storeWritten
  | .append3 _ => s.blen.toNat = 253 ∧ s.storeWritten
  | .join d _ => d.toNat < 24 ∧ s.cs.isSome = true
  | .csum => s.buflen.toNat = 32 ∧ s.entropyWritten
  | .verify => s.buflen.toNat = 32 ∧ s.entropyWritten ∧ s.claim.isSome = true

/-! ## What a command reads and overwrites -/

/-- Two states hold the same bit string: its length, the written marks of the bytes it reaches into, and its bits.
Bits at positions >= BLEN may differ, since "No command reads them" (R27). -/
def sameString (s u : State) : Prop :=
  s.blen = u.blen ∧
  (∀ (k : Nat) (h : k < 33), 8 * k < s.blen.toNat → (s.bitb[k]).isSome = (u.bitb[k]).isSome) ∧
  ∀ p, p < s.blen.toNat → fileBit s.bitb p = fileBit u.bitb p

/-- Two states hold the same buffer operand of CSUM and VERIFY. -/
def sameEntropy (s u : State) : Prop :=
  s.buflen = u.buflen ∧ ∀ (k : Nat) (h : k < 33), k < 32 → s.buf[k] = u.buf[k]

/-- Two states agree on the registers a command reads (the "reads" of R101 to R111, R141, R143). -/
def operandsAgree (i : Instr) (s u : State) : Prop :=
  match i with
  | .pack => s.nidx = u.nidx ∧ ∀ (k : Nat) (h : k < 24), k < s.nidx.toNat → s.idx[k] = u.idx[k]
  | .unpack => sameString s u
  | .tobytes => sameString s u
  | .split => sameString s u
  | .append3 _ => sameString s u
  | .join _ _ => s.cs = u.cs
  | .csum => sameEntropy s u
  | .verify => sameEntropy s u ∧ s.claim = u.claim

/-- Two states agree on the registers a command writes (the "writes" of R101 to R111, R141, R143). -/
def resultsAgree (i : Instr) (t v : State) : Prop :=
  match i with
  | .pack => t.bitb = v.bitb ∧ t.blen = v.blen
  | .unpack => t.nidx = v.nidx ∧ ∀ (k : Nat) (h : k < 24), k < t.nidx.toNat → t.idx[k] = v.idx[k]
  | .tobytes => t.buf = v.buf ∧ t.buflen = v.buflen
  | .split => t.claim = v.claim ∧ t.bitb = v.bitb ∧ t.blen = v.blen
  | .append3 _ => t.bitb = v.bitb ∧ t.blen = v.blen
  | .join d _ => ∀ h : d.toNat < 24, t.idx[d.toNat] = v.idx[d.toNat]
  | .csum => t.cs = v.cs
  | .verify => t.cs = v.cs ∧ t.status.matched = v.status.matched

/-- The registers a command overwrites (the table of R194), for a command performed in `s`; STATUS.MATCH is not a
register of its own and is treated apart. -/
def overwrites (i : Instr) (s : State) (r : Reg) : Prop :=
  match i with
  | .pack => r = .blen ∨ ∃ k, r = .bitb k
  | .unpack => r = .nidx ∨ ∃ k : Fin 24, k.val < s.blen.toNat / 11 ∧ r = .idx k
  | .tobytes => r = .buflen ∨ ∃ k, r = .buf k
  | .split => r = .claim ∨ r = .blen ∨ ∃ k, r = .bitb k
  | .append3 _ => r = .blen ∨ ∃ k, r = .bitb k
  | .join d _ => ∃ k : Fin 24, k.val = d.toNat ∧ r = .idx k
  | .csum => r = .cs
  | .verify => r = .cs

/-- No data register element that is written in `s` is unwritten in `t` (R21). -/
def keepsWritten (s t : State) : Prop :=
  (∀ (i : Nat) (h : i < 24), (s.idx[i]).isSome = true → (t.idx[i]).isSome = true) ∧
  (∀ (k : Nat) (h : k < 33), (s.bitb[k]).isSome = true → (t.bitb[k]).isSome = true) ∧
  (∀ (k : Nat) (h : k < 33), (s.buf[k]).isSome = true → (t.buf[k]).isSome = true) ∧
  (s.cs.isSome = true → t.cs.isSome = true) ∧ (s.claim.isSome = true → t.claim.isSome = true)

/-- The registers of the block but STATUS are the same in both states. -/
def sameDataAndControl (s t : State) : Prop :=
  t.idx = s.idx ∧ t.nidx = s.nidx ∧ t.bitb = s.bitb ∧ t.blen = s.blen ∧ t.buf = s.buf ∧ t.buflen = s.buflen ∧
    t.cs = s.cs ∧ t.claim = s.claim

end Sys2Proof.Machine
end

