-- ==== Sys2Proof/Certificates/Slice0/Obligations.lean ====
section
/-! DEFINITION. The statements about the block for the provers, file by file of spec/; each docstring names the rule it formalises. -/

open Sys2Proof Sys2Proof.Machine

/-! ## 00_scope.md: bit strings and bytes -/

/-- R11, R12: a value and its string, and bytes and their string, determine each other. -/
def Obligations.StringsAndValuesAreInverse : Prop :=
  (∀ w v : Nat, v < 2 ^ w → (bin w v).length = w ∧ val (bin w v) = v) ∧
  (∀ s : BitString, bin s.length (val s) = s) ∧
  (∀ bs : List Byte, toBytes (bytesToBits bs) = bs) ∧
  (∀ s : BitString, s.length % 8 = 0 → bytesToBits (toBytes s) = s)

/-! ## 10_state.md: registers, reset, STATUS -/

/-- R38: every data register element is unwritten, the control registers and STATUS are zero, CMD reads zero. -/
def Obligations.ResetLeavesTheResetValues : Prop :=
  (∀ (i : Nat) (h : i < 24), State.reset.idx[i] = none) ∧ State.reset.nidx = 0 ∧
  (∀ (k : Nat) (h : k < 33), State.reset.bitb[k] = none) ∧ State.reset.blen = 0 ∧
  (∀ (k : Nat) (h : k < 33), State.reset.buf[k] = none) ∧ State.reset.buflen = 0 ∧
  State.reset.cs = none ∧ State.reset.claim = none ∧
  State.reset.status.word = 0x0000 ∧ readReg .cmd State.reset = some 0x0000

/-- R34: the STATUS word's bits, the hard-wired zeros among them, in every state; FCODE is 0 when FAULT = 0 (in the
states of the invariant); the code numbers are those of R161. -/
def Obligations.StatusWordHasItsFields : Prop :=
  (∀ st : Status,
    st.word.getLsbD 0 = st.matched ∧ st.word.getLsbD 1 = st.fault ∧ st.word.extractLsb' 2 2 = 0 ∧
    st.word.extractLsb' 4 4 = st.fcode.code ∧ st.word.extractLsb' 8 8 = 0) ∧
  (∀ s : State, s.Inv → s.status.fault = false → s.status.word.extractLsb' 4 4 = 0) ∧
  State.reset.status.word = 0 ∧
  (∀ s : State, readReg .status s = some s.status.word) ∧
  (∀ (s : State) (v : Word16) (rest : List HostEvent), s.pending = .write 0x1D v :: rest → s.status.fault = false →
    step s = .next (raise .eHostAddr { s with pending := rest })) ∧
  FaultCode.none.code = 0 ∧ FaultCode.eOpcode.code = 1 ∧ FaultCode.eField.code = 2 ∧ FaultCode.eRange.code = 3 ∧
  FaultCode.eLength.code = 4 ∧ FaultCode.eUninit.code = 5 ∧ FaultCode.eHostAddr.code = 6 ∧ FaultCode.eHostVal.code = 7

/-- R35: MATCH changes only in a VERIFY that completes, or in a reset; no command reads it; the host reads it as bit 0
of STATUS. -/
def Obligations.MatchWrittenOnlyByVerify : Prop :=
  (∀ s t : State, step s = .next t → t.status.matched ≠ s.status.matched →
    (∃ rest, s.pending = .reset :: rest) ∨
    (∃ rest, s.pending = .write cmdAddr 0x0009 :: rest ∧ s.status.fault = false ∧ t.status.fault = false)) ∧
  (∀ (i : Instr) (s : State) (m : Bool), ∃ t u, exec i s = .next t ∧ exec i (s.setMatch m) = .next u ∧
    u.setMatch false = t.setMatch false) ∧
  (∀ s : State, ∃ w, readReg .status s = some w ∧ w.getLsbD 0 = s.status.matched)

/-- R36, R167: FAULT and FCODE are written only by the fault entry, which writes them once; only reset clears them. -/
def Obligations.FaultWrittenOnlyByFaultEntry : Prop :=
  ∀ s t : State, step s = .next t → s.pending.head? ≠ some .reset →
    (t.status.fault = s.status.fault ∧ t.status.fcode = s.status.fcode) ∨
    (s.status.fault = false ∧ ∃ c, c ≠ FaultCode.none ∧ t.status = { s.status with fault := true, fcode := c })

/-- R29: a completed command that writes the store writes all 33 bytes with zero bits from BLEN on, and one that
writes the buffer writes all 33 bytes with zero bytes from BUFLEN on. -/
def Obligations.FullStoreWrites : Prop :=
  (∀ (i : Instr) (s t : State), (i = .pack ∨ i = .split ∨ ∃ x, i = .append3 x) → ready i s → exec i s = .next t →
    t.blen.toNat ≤ 264 ∧ (∀ (k : Nat) (h : k < 33), (t.bitb[k]).isSome = true) ∧
    ∀ p, t.blen.toNat ≤ p → p < 264 → fileBit t.bitb p = some false) ∧
  (∀ s t : State, ready .tobytes s → exec .tobytes s = .next t →
    t.buflen.toNat ≤ 33 ∧ (∀ (k : Nat) (h : k < 33), (t.buf[k]).isSome = true) ∧
    ∀ (k : Nat) (h : k < 33), t.buflen.toNat ≤ k → t.buf[k] = some 0)

/-- R39: what a command does, its fault or its written registers, depends on the registers it reads and on nothing
else; of the bit string only the BLEN bits count (R27). -/
def Obligations.CommandsDependOnOperandsOnly : Prop :=
  ∀ (i : Instr) (s u : State), s.status.fault = false → u.status.fault = false → operandsAgree i s u →
    ∃ t v, exec i s = .next t ∧ exec i u = .next v ∧ t.status.fault = v.status.fault ∧
      (t.status.fault = true → t.status.fcode = v.status.fcode) ∧
      (t.status.fault = false → resultsAgree i t v)

/-- The invariant (FCODE is 0 exactly when FAULT = 0; MATCH = 1 only with CS written) is kept by every step, from every
state that meets it. The invariant is the model's own reading of R34, R35, R36 and R143 (log entry 13). -/
def Obligations.EveryStepKeepsTheStatusInvariant : Prop :=
  ∀ s t : State, s.Inv → step s = .next t → t.Inv

/-- The invariant (log entry 13) holds right after reset. -/
def Obligations.ResetMeetsTheStatusInvariant : Prop := State.reset.Inv

/-! ## 20_memory.md: the host interface -/

/-- R52: HostRead answers the register zero-extended, or no value, and changes no register, but for the E_HOSTADDR
fault of a reserved address while no fault stands. -/
def Obligations.HostReadAnswersTheRegister : Prop :=
  (∀ (s : State) (a : Addr) (rest : List HostEvent), s.pending = .read a :: rest →
    (regAt a = none → s.status.fault = false → step s = .next { s with
      pending := rest, reads := none :: s.reads, status := { s.status with fault := true, fcode := .eHostAddr } }) ∧
    (regAt a = none → s.status.fault = true → step s = .next { s with pending := rest, reads := none :: s.reads }) ∧
    (∀ r, regAt a = some r → step s = .next { s with pending := rest, reads := readReg r s :: s.reads })) ∧
  (∀ s : State,
    (∀ i : Fin 24, readReg (.idx i) s = (s.idx[i.val]).map (BitVec.setWidth 16)) ∧
    readReg .nidx s = some (s.nidx.setWidth 16) ∧ readReg .blen s = some (s.blen.setWidth 16) ∧
    readReg .buflen s = some (s.buflen.setWidth 16) ∧ readReg .cs s = s.cs.map (BitVec.setWidth 16) ∧
    readReg .claim s = s.claim.map (BitVec.setWidth 16) ∧ readReg .status s = some s.status.word ∧
    readReg .cmd s = some 0x0000 ∧
    (∀ k : Fin 33, readReg (.bitb k) s = (s.bitb[k.val]).map (BitVec.setWidth 16)) ∧
    (∀ k : Fin 33, readReg (.buf k) s = (s.buf[k.val]).map (BitVec.setWidth 16)))

/-- R53: a host write to an address other than CMD is ignored while faulted, faults E_HOSTADDR on a reserved address,
CS or STATUS, faults E_HOSTVAL on a value wider than the register, and else writes exactly that register: the register
then reads as the value, and every other register reads as before. -/
def Obligations.HostWriteWritesOneRegister : Prop :=
  ∀ (s : State) (a : Addr) (v : Word16) (rest : List HostEvent), s.pending = .write a v :: rest → a ≠ cmdAddr →
    (s.status.fault = true → step s = .next { s with pending := rest }) ∧
    (s.status.fault = false →
      (regAt a = none ∨ regAt a = some .cs ∨ regAt a = some .status →
        step s = .next (raise .eHostAddr { s with pending := rest })) ∧
      (∀ r, regAt a = some r → r ≠ .cs → r ≠ .status → 2 ^ r.width ≤ v.toNat →
        step s = .next (raise .eHostVal { s with pending := rest })) ∧
      (∀ r, regAt a = some r → r ≠ .cs → r ≠ .status → v.toNat < 2 ^ r.width →
        ∃ t, step s = .next t ∧ readReg r t = some v ∧ (∀ q, q ≠ r → readReg q t = readReg q s) ∧
          t.status = s.status ∧ t.pending = rest ∧ t.reads = s.reads))

/-- R54: a write to CMD is dropped while faulted, raises its decode fault, or performs the decoded command to
completion within the step. A step runs the decoded instruction: around `exec`, step only takes the transaction off the
host's list. -/
def Obligations.CommandWriteRunsTheDecodedInstruction : Prop :=
  ∀ (s : State) (w : Word16) (rest : List HostEvent), s.pending = .write cmdAddr w :: rest →
    (s.status.fault = true → step s = .next { s with pending := rest }) ∧
    (s.status.fault = false → decode w = .error .eOpcode → step s = .next (raise .eOpcode { s with pending := rest })) ∧
    (s.status.fault = false → decode w = .error .eField → step s = .next (raise .eField { s with pending := rest })) ∧
    (∀ i, s.status.fault = false → decode w = .ok i → step s = exec i { s with pending := rest })

/-- A word placed by `withFetchWord` is run by the very next step, and nothing else is disturbed (log entry 3). -/
def Obligations.PlacedWordIsRunNext : Prop :=
  ∀ (s : State) (w : Word16) (i : Instr), s.status.fault = false → decode w = .ok i →
    step (s.withFetchWord 16 w.toNat) = exec i s ∧ decodeTableWord 16 w.toNat = some i

/-- R55: the register map, with each register's width; the reserved addresses name no register; CS and STATUS are the
read-only ones. -/
def Obligations.AddressMapIsTheTable : Prop :=
  (∀ i : Fin 24, regAt (BitVec.ofNat 8 i) = some (.idx i)) ∧
  regAt 0x18 = some .nidx ∧ regAt 0x19 = some .blen ∧ regAt 0x1A = some .buflen ∧ regAt 0x1B = some .cs ∧
  regAt 0x1C = some .claim ∧ regAt 0x1D = some .status ∧ regAt 0x1E = none ∧ regAt 0x1F = some .cmd ∧
  (∀ k : Fin 33, regAt (BitVec.ofNat 8 (0x20 + k)) = some (.bitb k)) ∧
  (∀ a : Addr, 0x41 ≤ a.toNat → a.toNat ≤ 0x47 → regAt a = none) ∧
  (∀ k : Fin 33, regAt (BitVec.ofNat 8 (0x48 + k)) = some (.buf k)) ∧
  (∀ a : Addr, 0x69 ≤ a.toNat → regAt a = none) ∧
  (∀ i k l, (Reg.idx i).width = 11 ∧ Reg.nidx.width = 5 ∧ Reg.blen.width = 9 ∧ Reg.buflen.width = 6 ∧
    Reg.cs.width = 8 ∧ Reg.claim.width = 8 ∧ Reg.status.width = 16 ∧ Reg.cmd.width = 16 ∧
    (Reg.bitb k).width = 8 ∧ (Reg.buf l).width = 8) ∧
  (∀ r : Reg, r.hostReadOnly = true ↔ r = .cs ∨ r = .status)

/-- R50: each address names at most one register, and each register has one address. -/
def Obligations.EachRegisterHasOneAddress : Prop :=
  ∀ (a : Addr) (r : Reg), regAt a = some r ↔ a = addrOf r

/-- R60: repeating a read answers the same and changes nothing; a register write changes no other register but STATUS,
which it changes only by a fault, and repeating it leaves the same state; PACK, UNPACK, TOBYTES, JOIN, CSUM and VERIFY are idempotent; a second SPLIT or APPEND3 faults E_LENGTH. -/
def Obligations.RepeatedAccessesAndCommands : Prop :=
  (∀ (s : State) (a : Addr) (r : Reg) (rest : List HostEvent), regAt a = some r →
    s.pending = .read a :: .read a :: rest →
    ∃ t, step s = .next t ∧
      step t = .next { s with pending := rest, reads := readReg r s :: readReg r s :: s.reads }) ∧
  (∀ (s t : State) (a : Addr) (v : Word16) (rest : List HostEvent), a ≠ cmdAddr →
    s.pending = .write a v :: .write a v :: rest → step s = .next t → step t = .next { t with pending := rest }) ∧
  (∀ (s t : State) (a : Addr) (v : Word16) (rest : List HostEvent), a ≠ cmdAddr → s.pending = .write a v :: rest →
    step s = .next t →
    (∀ q, addrOf q ≠ a → q ≠ .status → readReg q t = readReg q s) ∧
    (t.status = s.status ∨ (s.status.fault = false ∧ t.status.fault = true))) ∧
  (∀ (i : Instr) (s t : State),
    (i = .pack ∨ i = .unpack ∨ i = .tobytes ∨ (∃ d x, i = .join d x) ∨ i = .csum ∨ i = .verify) →
    exec i s = .next t → exec i t = .next t) ∧
  (∀ s t : State, ready .split s → exec .split s = .next t → exec .split t = .next (raise .eLength t)) ∧
  (∀ (x y : BitVec 3) (s t : State), ready (.append3 x) s → exec (.append3 x) s = .next t →
    exec (.append3 y) t = .next (raise .eLength t))

/-! ## 30_encoding.md: command words -/

/-- A word decodes to a command exactly when it is that command's encoding: decoding inverts encoding, and no word has
two meanings (R70 to R75). -/
def Obligations.DecodeInvertsEncode : Prop :=
  ∀ (w : Word16) (i : Instr), decode w = .ok i ↔ w = encode i

/-- R72: a word selects a row of the table exactly when it decodes to the command of that row, and the T and D operands
are bits 6:4 and 12:8. -/
def Obligations.WordsSelectTheirTableRow : Prop :=
  (∀ (w : Word16) (r : OpcodeRow), r ∈ opcodeTable →
    (r.selects w = true ↔ ∃ i, decode w = .ok i ∧ i.mnemonic = r.mnemonic)) ∧
  (∀ (w : Word16) (t : BitVec 3), decode w = .ok (.append3 t) → t.toNat = w.toNat / 16 % 8) ∧
  (∀ (w : Word16) (d : BitVec 5) (t : BitVec 3), decode w = .ok (.join d t) →
    d.toNat = w.toNat / 256 % 32 ∧ t.toNat = w.toNat / 16 % 8) ∧
  (∀ (w : Word16) (i : Instr), decode w = .ok i → i.opcode.toNat = w.toNat % 16)

/-- R73, R76: a reserved opcode faults E_OPCODE whatever the other bits, a legal opcode with a reserved or unused field
not zero faults E_FIELD, and every other word is performed as the one command it encodes; a JOIN word with D above 23
faults E_RANGE. -/
def Obligations.EveryWordIsACommandOrOneDecodeFault : Prop :=
  ∀ (s : State) (w : Word16) (rest : List HostEvent), s.pending = .write cmdAddr w :: rest → s.status.fault = false →
    (w.toNat % 16 = 0 ∨ w.toNat % 16 = 7 ∨ 10 ≤ w.toNat % 16 →
      step s = .next (raise .eOpcode { s with pending := rest })) ∧
    (w.toNat % 16 ≠ 0 → w.toNat % 16 ≠ 7 → w.toNat % 16 < 10 →
      (w.toNat / 8192 ≠ 0 ∨ w.toNat / 128 % 2 ≠ 0 ∨
        (w.toNat % 16 ≠ 5 ∧ w.toNat % 16 ≠ 6 ∧ w.toNat / 16 % 8 ≠ 0) ∨
        (w.toNat % 16 ≠ 6 ∧ w.toNat / 256 % 32 ≠ 0) →
        step s = .next (raise .eField { s with pending := rest })) ∧
      (w.toNat / 8192 = 0 → w.toNat / 128 % 2 = 0 →
        (w.toNat % 16 = 5 ∨ w.toNat % 16 = 6 ∨ w.toNat / 16 % 8 = 0) →
        (w.toNat % 16 = 6 ∨ w.toNat / 256 % 32 = 0) →
        ∃ i, decode w = .ok i ∧ w = encode i ∧ step s = exec i { s with pending := rest })) ∧
    (∀ d t, decode w = .ok (.join d t) → 23 < d.toNat → step s = .next (raise .eRange { s with pending := rest }))

/-- Words written out from R72 and the vectors X1 to X9, J1, J4 and A1 of 95_test_vectors.md. -/
def Obligations.SampleWordsDecode : Prop :=
  decode 0x0001 = .ok .pack ∧ decode 0x0002 = .ok .unpack ∧ decode 0x0003 = .ok .tobytes ∧
  decode 0x0004 = .ok .split ∧ decode 0x0075 = .ok (.append3 7) ∧ decode 0x1776 = .ok (.join 23 7) ∧
  decode 0x1876 = .ok (.join 24 7) ∧ decode 0x0008 = .ok .csum ∧ decode 0x0009 = .ok .verify ∧
  decode 0x0000 = .error .eOpcode ∧ decode 0x0007 = .error .eOpcode ∧ decode 0x000F = .error .eOpcode ∧
  decode 0x00F0 = .error .eOpcode ∧
  decode 0x0011 = .error .eField ∧ decode 0x0081 = .error .eField ∧ decode 0x2001 = .error .eField ∧
  decode 0x0105 = .error .eField ∧ decode 0x8006 = .error .eField

/-- R78: LOADIDX, run by the host, puts its values into IDX0..IDX(n-1) and n into NIDX, and changes no other register. -/
def Obligations.LoadIdxLoadsItsValues : Prop :=
  ∀ (s : State) (vs : List Idx) (es rest : List HostEvent), loadIdx vs = some es → s.pending = es ++ rest →
    s.status.fault = false →
    ∃ u, runsTo (vs.length + 1) s u ∧ u.nidx.toNat = vs.length ∧
      (∀ (k : Nat) (h : k < 24), u.idx[k] = if k < vs.length then vs[k]? else s.idx[k]) ∧
      u = { s with idx := u.idx, nidx := u.nidx, pending := rest }

/-! ## 41_bitpacker.md: the BitPacker commands -/

/-- R101: PACK, its word, its two faults in their order, and the state it leaves: bit j of field i of the string is bit
10 - j of IDXi, zero bits follow, BLEN is 11 NIDX, and nothing else changes. -/
def Obligations.PackConcatenatesTheIndices : Prop :=
  decode 0x0001 = .ok .pack ∧
  ∀ s : State,
    (24 < s.nidx.toNat → exec .pack s = .next (raise .eLength s)) ∧
    (s.nidx.toNat ≤ 24 → ¬ s.indicesWritten s.nidx.toNat → exec .pack s = .next (raise .eUninit s)) ∧
    (s.nidx.toNat ≤ 24 → s.indicesWritten s.nidx.toNat →
      ∃ t, exec .pack s = .next t ∧ t.blen.toNat = 11 * s.nidx.toNat ∧
        (∀ i j, i < s.nidx.toNat → j < 11 → fileBit t.bitb (11 * i + j) = some ((s.idxVal i).getLsbD (10 - j))) ∧
        (∀ p, 11 * s.nidx.toNat ≤ p → p < 264 → fileBit t.bitb p = some false) ∧
        t = { s with bitb := t.bitb, blen := t.blen })

/-- R102: after PACK, field i of the loaded string has the value IDXi; with 24 indices its last 11 bits are the last
three entropy bits and the eight checksum bits. -/
def Obligations.PackedFieldsAreTheIndices : Prop :=
  ∀ s : State, ready .pack s →
    ∃ t b, exec .pack s = .next t ∧ load t = .ok b ∧ b.length = 11 * s.nidx.toNat ∧
      t.blen.toNat = 11 * s.nidx.toNat ∧
      (∀ i, i < s.nidx.toNat → substr b (11 * i) (11 * i + 10) = bin 11 (s.idxVal i).toNat ∧
        val (substr b (11 * i) (11 * i + 10)) = (s.idxVal i).toNat) ∧
      (s.nidx.toNat = 24 → t.blen.toNat = 264 ∧
        substr b 0 252 = packIndices ((List.range 23).map s.idxVal) ∧
        substr b 253 255 = bin 3 ((s.idxVal 23).toNat / 256) ∧
        substr b 256 263 = bin 8 ((s.idxVal 23).toNat % 256)) ∧
      (s.nidx.toNat = 23 → t.blen.toNat = 253)

/-- R103: UNPACK, its word, its two faults in their order, and the state it leaves: bit 10 - j of IDXi is bit j of field
i, NIDX is BLEN / 11, the IDX registers from there on stay, and nothing else changes. -/
def Obligations.UnpackSplitsTheString : Prop :=
  decode 0x0002 = .ok .unpack ∧
  ∀ s : State,
    (264 < s.blen.toNat ∨ s.blen.toNat % 11 ≠ 0 → exec .unpack s = .next (raise .eLength s)) ∧
    (s.blen.toNat ≤ 264 → s.blen.toNat % 11 = 0 → ¬ s.storeWritten → exec .unpack s = .next (raise .eUninit s)) ∧
    (s.blen.toNat ≤ 264 → s.blen.toNat % 11 = 0 → s.storeWritten →
      ∃ t, exec .unpack s = .next t ∧ t.nidx.toNat = s.blen.toNat / 11 ∧
        (∀ (i : Nat) (h : i < 24), i < s.blen.toNat / 11 → ∃ x, t.idx[i] = some x ∧
          ∀ j, j < 11 → fileBit s.bitb (11 * i + j) = some (x.getLsbD (10 - j))) ∧
        (∀ (i : Nat) (h : i < 24), s.blen.toNat / 11 ≤ i → t.idx[i] = s.idx[i]) ∧
        t = { s with idx := t.idx, nidx := t.nidx })

/-- R104: PACK then UNPACK restores the indices and their count; UNPACK then PACK restores the string and its length,
with zero bits after it. -/
def Obligations.PackAndUnpackAreInverse : Prop :=
  (∀ s : State, ready .pack s →
    ∃ t u, exec .pack s = .next t ∧ exec .unpack t = .next u ∧ u.idx = s.idx ∧ u.nidx = s.nidx) ∧
  (∀ s : State, ready .unpack s →
    ∃ t u, exec .unpack s = .next t ∧ exec .pack t = .next u ∧ u.blen = s.blen ∧
      (∀ p, p < s.blen.toNat → fileBit u.bitb p = fileBit s.bitb p) ∧
      (∀ p, s.blen.toNat ≤ p → p < 264 → fileBit u.bitb p = some false))

/-- R105: TOBYTES, its word, its two faults in their order, and the state it leaves: the bits of the string, then zero
bits to the end of the buffer, BUFLEN the least number of bytes that holds them, and nothing else changes. -/
def Obligations.TobytesPadsWithZeros : Prop :=
  decode 0x0003 = .ok .tobytes ∧
  ∀ s : State,
    (264 < s.blen.toNat → exec .tobytes s = .next (raise .eLength s)) ∧
    (s.blen.toNat ≤ 264 → ¬ s.storeWritten → exec .tobytes s = .next (raise .eUninit s)) ∧
    (s.blen.toNat ≤ 264 → s.storeWritten →
      ∃ t, exec .tobytes s = .next t ∧ t.buflen.toNat = (s.blen.toNat + 7) / 8 ∧
        (∀ p, p < s.blen.toNat → fileBit t.buf p = fileBit s.bitb p) ∧
        (∀ p, s.blen.toNat ≤ p → p < 264 → fileBit t.buf p = some false) ∧
        t = { s with buf := t.buf, buflen := t.buflen })

/-- R106: TOBYTES faults only on BLEN > 264 or on unwritten bytes; BUFLEN = ceil_div(BLEN, 8); for BLEN = 8m the bytes
are to_bytes of the string. -/
def Obligations.TobytesIsTotalOnWrittenStrings : Prop :=
  (∀ s : State, s.status.fault = false →
    ((∃ t, exec .tobytes s = .next t ∧ t.status.fault = false) ↔ s.blen.toNat ≤ 264 ∧ s.storeWritten)) ∧
  (∀ s : State, ready .tobytes s →
    ∃ t b, exec .tobytes s = .next t ∧ load s = .ok b ∧ t.buflen.toNat = ceilDiv s.blen.toNat 8 ∧
      ∀ m, s.blen.toNat = 8 * m → ∀ (k : Nat) (h : k < 33), k < m → t.buf[k] = (toBytes b)[k]?)

/-- R107: SPLIT, its word, its two faults in their order, and the state it leaves: CLAIM is the old BITB32, BITB0..31
keep their values, BITB32 is 0, BLEN is 256, and nothing else changes. -/
def Obligations.SplitTakesTheLastByte : Prop :=
  decode 0x0004 = .ok .split ∧
  ∀ s : State,
    (s.blen.toNat ≠ 264 → exec .split s = .next (raise .eLength s)) ∧
    (s.blen.toNat = 264 → ¬ s.storeWritten → exec .split s = .next (raise .eUninit s)) ∧
    (s.blen.toNat = 264 → s.storeWritten →
      ∃ t, exec .split s = .next t ∧ t.claim = s.bitb[32] ∧ t.blen.toNat = 256 ∧
        (∀ (k : Nat) (h : k < 32), t.bitb[k] = s.bitb[k]) ∧ t.bitb[32] = some 0 ∧
        t = { s with claim := t.claim, bitb := t.bitb, blen := t.blen })

/-- R108: after PACK of 24 indices and SPLIT, CLAIM is IDX23[7:0] and the store holds the 256 entropy bits. -/
def Obligations.PackThenSplitGivesEntropyAndClaim : Prop :=
  ∀ s : State, s.nidx.toNat = 24 → s.indicesWritten 24 →
    ∃ t u, exec .pack s = .next t ∧ exec .split t = .next u ∧
      u.claim = some ((s.idxVal 23).setWidth 8) ∧ u.blen.toNat = 256 ∧
      (∀ i j, i < 23 → j < 11 → fileBit u.bitb (11 * i + j) = some ((s.idxVal i).getLsbD (10 - j))) ∧
      (∀ j, j < 3 → fileBit u.bitb (253 + j) = some ((s.idxVal 23).getLsbD (10 - j))) ∧
      (∀ p, 256 ≤ p → p < 264 → fileBit u.bitb p = some false)

/-- R109: APPEND3 #t, its words, its two faults in their order, and the state it leaves: BITB31 becomes
(BITB31 & 0xF8) | t, BITB0..30 keep their values, BITB32 is 0, BLEN is 256, and nothing else changes. -/
def Obligations.Append3SetsTheTailBits : Prop :=
  (∀ x : BitVec 3, decode (BitVec.ofNat 16 (0x0005 + 16 * x.toNat)) = .ok (.append3 x)) ∧
  ∀ (x : BitVec 3) (s : State),
    (s.blen.toNat ≠ 253 → exec (.append3 x) s = .next (raise .eLength s)) ∧
    (s.blen.toNat = 253 → ¬ s.storeWritten → exec (.append3 x) s = .next (raise .eUninit s)) ∧
    (s.blen.toNat = 253 → s.storeWritten →
      ∃ t, exec (.append3 x) s = .next t ∧ t.blen.toNat = 256 ∧
        (∀ (k : Nat) (h : k < 31), t.bitb[k] = s.bitb[k]) ∧
        t.bitb[31] = (s.bitb[31]).map (fun b => (b &&& 0xF8) ||| x.setWidth 8) ∧ t.bitb[32] = some 0 ∧
        t = { s with bitb := t.bitb, blen := t.blen })

/-- R110: PACK of 23 indices then APPEND3 #x gives the first 256 bits of a PACK of 24 indices whose last has x as its
top bits, so TOBYTES gives the same 32 bytes as after that PACK and SPLIT. -/
def Obligations.Append3AgreesWithTheFullPack : Prop :=
  ∀ (s : State) (x : BitVec 3) (last : Idx), s.nidx.toNat = 23 → s.indicesWritten 23 → last.extractLsb' 8 3 = x →
    ∃ p a c full cut d,
      exec .pack s = .next p ∧ exec (.append3 x) p = .next a ∧ exec .tobytes a = .next c ∧
      exec .pack { s with idx := s.idx.set 23 (some last), nidx := 24 } = .next full ∧
      exec .split full = .next cut ∧ exec .tobytes cut = .next d ∧
      a.blen.toNat = 256 ∧ (∀ q, q < 256 → fileBit a.bitb q = fileBit full.bitb q) ∧
      c.buf = d.buf ∧ c.buflen.toNat = 32 ∧ d.buflen.toNat = 32

/-- R111: JOIN IDXd, #x, its words, E_RANGE for d above 23 before E_UNINIT, and the state it leaves: IDXd is
x * 256 + CS and nothing else changes. -/
def Obligations.JoinFormsTheIndex : Prop :=
  (∀ (d : BitVec 5) (x : BitVec 3),
    decode (BitVec.ofNat 16 (0x0006 + 16 * x.toNat + 256 * d.toNat)) = .ok (.join d x)) ∧
  ∀ (d : BitVec 5) (x : BitVec 3) (s : State),
    (23 < d.toNat → exec (.join d x) s = .next (raise .eRange s)) ∧
    (d.toNat ≤ 23 → s.cs = none → exec (.join d x) s = .next (raise .eUninit s)) ∧
    (∀ (h : d.toNat < 24) (c : Byte), s.cs = some c →
      ∃ v : Idx, v.toNat = x.toNat * 256 + c.toNat ∧
        exec (.join d x) s = .next { s with idx := s.idx.set d.toNat (some v) })

/-- R112: CANDIDATE #x leaves IDX23 = x * 256 + c, where c is the first digest byte of the entropy E made of the 23
packed indices and the 3 tail bits; then VALIDATE gives MATCH = 1, for every x. -/
def Obligations.EveryCandidateValidates : Prop :=
  ∀ (s : State) (x : BitVec 3) (rest : List HostEvent), s.indicesWritten 23 → s.status.fault = false →
    s.pending = candidate x ++ (validate ++ rest) →
    ∃ (E : Vector Byte 32) (u w : State),
      bytesToBits E.toList = packIndices ((List.range 23).map s.idxVal) ++ bin 3 x.toNat ∧
      runsTo 6 s u ∧ u.pending = validate ++ rest ∧ u.status.fault = false ∧
      (∃ v, u.idx[23] = some v ∧ v.toNat = x.toNat * 256 + ((Config.sha256_32 E)[0]).toNat) ∧
      runsTo 11 s w ∧ w.pending = rest ∧ w.status.fault = false ∧ w.status.matched = true

/-! ## 42_checksum.md: the ChecksumEngine commands -/

/-- R140: the checksum of 32 bytes is the first byte of their digest, and the value of the digest's first 8 bits. -/
def Obligations.ChecksumIsTheFirstDigestByte : Prop :=
  ∀ v : Vector Byte 32, checksum v.toList = (Config.sha256_32 v)[0] ∧
    (checksum v.toList).toNat = val (substr (bytesToBits (Config.sha256_32 v).toList) 0 7)

/-- R141: CSUM, its word, its two faults in their order, and the state it leaves: CS is the checksum of BUF0..BUF31 and
nothing else changes. -/
def Obligations.CsumWritesTheChecksum : Prop :=
  decode 0x0008 = .ok .csum ∧
  ∀ s : State,
    (s.buflen.toNat ≠ 32 → exec .csum s = .next (raise .eLength s)) ∧
    (s.buflen.toNat = 32 → ¬ s.entropyWritten → exec .csum s = .next (raise .eUninit s)) ∧
    (∀ v : Vector Byte 32, s.buflen.toNat = 32 → (∀ (k : Nat) (h : k < 32), s.buf[k] = some v[k]) →
      exec .csum s = .next { s with cs := some (Config.sha256_32 v)[0] })

/-- R142: two CSUMs with equal BUF0..BUF31 write equal CS. -/
def Obligations.CsumIsDeterministic : Prop :=
  ∀ s u : State, ready .csum s → ready .csum u → (∀ (k : Nat) (h : k < 32), s.buf[k] = u.buf[k]) →
    ∃ t v, exec .csum s = .next t ∧ exec .csum u = .next v ∧ t.cs.isSome = true ∧ t.cs = v.cs

/-- R143: VERIFY, its word, its faults in their order (CLAIM among the unwritten operands), and the state it leaves: CS
is the checksum, MATCH says whether it equals CLAIM, and nothing else changes; no other command writes MATCH. -/
def Obligations.VerifyComparesWithTheClaim : Prop :=
  decode 0x0009 = .ok .verify ∧
  ∀ s : State,
    (s.buflen.toNat ≠ 32 → exec .verify s = .next (raise .eLength s)) ∧
    (s.buflen.toNat = 32 → ¬ s.entropyWritten ∨ s.claim = none → exec .verify s = .next (raise .eUninit s)) ∧
    (∀ (v : Vector Byte 32) (c : Byte), s.buflen.toNat = 32 → (∀ (k : Nat) (h : k < 32), s.buf[k] = some v[k]) →
      s.claim = some c →
      ∃ t, exec .verify s = .next t ∧ t.cs = some (Config.sha256_32 v)[0] ∧
        (t.status.matched = true ↔ (Config.sha256_32 v)[0] = c) ∧
        t.status.fault = s.status.fault ∧ t.status.fcode = s.status.fcode ∧
        t = { s with cs := t.cs, status := t.status }) ∧
    (∀ (i : Instr) (t : State), i ≠ .verify → exec i s = .next t → t.status.matched = s.status.matched)

/-- R144: VERIFY is a function of BUF0..BUF31 and CLAIM. -/
def Obligations.VerifyIsDeterministic : Prop :=
  ∀ s u : State, ready .verify s → ready .verify u → (∀ (k : Nat) (h : k < 32), s.buf[k] = u.buf[k]) →
    s.claim = u.claim →
    ∃ t v, exec .verify s = .next t ∧ exec .verify u = .next v ∧ t.cs.isSome = true ∧ t.cs = v.cs ∧
      t.status.matched = v.status.matched

/-- R145: from written IDX0..IDX23, VALIDATE completes without a fault, CLAIM is IDX23[7:0], CS is the first digest byte
of the 32-byte entropy E, the first 256 packed bits, and MATCH = 1 exactly when the two are equal. -/
def Obligations.ValidateComparesClaimAndChecksum : Prop :=
  ∀ (s : State) (rest : List HostEvent), s.indicesWritten 24 → s.status.fault = false → s.pending = validate ++ rest →
    ∃ (E : Vector Byte 32) (u : State),
      bytesToBits E.toList = (packIndices ((List.range 24).map s.idxVal)).take 256 ∧
      runsTo 5 s u ∧ u.pending = rest ∧ u.status.fault = false ∧
      u.claim = some ((s.idxVal 23).setWidth 8) ∧ u.cs = some (Config.sha256_32 E)[0] ∧
      (u.status.matched = true ↔ (s.idxVal 23).setWidth 8 = (Config.sha256_32 E)[0])

/-- R146: for fixed IDX0..IDX22, each tail has exactly one final index that validates, x * 256 + checksum(E_x); so 8 of
the 2048 final indices validate and 2040 do not. -/
def Obligations.EightFinalIndicesValidate : Prop :=
  ∀ s : State, s.indicesWritten 23 → s.status.fault = false →
    (∀ x : BitVec 3, ∃ E : Vector Byte 32,
      bytesToBits E.toList = packIndices ((List.range 23).map s.idxVal) ++ bin 3 x.toNat ∧
      ∀ last : Idx, last.extractLsb' 8 3 = x →
        (validates s last ↔ last.toNat = x.toNat * 256 + ((Config.sha256_32 E)[0]).toNat)) ∧
    {last : Idx | validates s last}.ncard = 8 ∧ {last : Idx | ¬ validates s last}.ncard = 2040

/-! ## 60_exceptions.md: faults -/

/-- R163: the fault entry, which writes FAULT and FCODE once and nothing else; and faults are precise: a step that ends
in a new fault leaves every register but STATUS, and MATCH, as it was. -/
def Obligations.FaultsArePrecise : Prop :=
  (∀ (c : FaultCode) (s : State), s.status.fault = false →
    raise c s = { s with status := { s.status with fault := true, fcode := c } }) ∧
  (∀ (c : FaultCode) (s : State), s.status.fault = true → raise c s = s) ∧
  (∀ s t : State, s.status.fault = false → step s = .next t → t.status.fault = true →
    sameDataAndControl s t ∧ t.status.matched = s.status.matched ∧ t.status.fcode ≠ .none ∧
    t.pending = s.pending.tail)

/-- R164: while FAULT = 1 a host write, CMD included, changes nothing, a read answers as R52 says and changes no
register, and every step completes. -/
def Obligations.FaultedBlockIgnoresWrites : Prop :=
  ∀ s : State, s.status.fault = true →
    (∀ a v rest, s.pending = .write a v :: rest → step s = .next { s with pending := rest }) ∧
    (∀ a rest, s.pending = .read a :: rest →
      step s = .next { s with pending := rest, reads := readResult a s :: s.reads }) ∧
    (∃ t, step s = .next t)

/-- R165: the order of a command's checks: the opcode before the fields, and the fields before any check of the command
itself (such a word is no command); JOIN's D before CS; a length before an
unwritten operand; and JOIN's index check never fires. -/
def Obligations.ChecksComeInTheirOrder : Prop :=
  (∀ w : Word16, (w.toNat % 16 = 0 ∨ w.toNat % 16 = 7 ∨ 10 ≤ w.toNat % 16) → decode w = .error .eOpcode) ∧
  (∀ w : Word16, w.toNat % 16 ≠ 0 → w.toNat % 16 ≠ 7 → w.toNat % 16 < 10 →
    (w.toNat / 8192 ≠ 0 ∨ w.toNat / 128 % 2 ≠ 0 ∨
      (w.toNat % 16 ≠ 5 ∧ w.toNat % 16 ≠ 6 ∧ w.toNat / 16 % 8 ≠ 0) ∨
      (w.toNat % 16 ≠ 6 ∧ w.toNat / 256 % 32 ≠ 0)) → decode w = .error .eField) ∧
  (∀ (d : BitVec 5) (x : BitVec 3) (s : State), 23 < d.toNat → exec (.join d x) s = .next (raise .eRange s)) ∧
  (∀ (d : BitVec 5) (x : BitVec 3) (s t : State), d.toNat ≤ 23 → s.status.fault = false →
    exec (.join d x) s = .next t → t.status.fault = true → t.status.fcode = .eUninit) ∧
  (∀ (i : Instr) (s : State),
    (i = .pack ∧ 24 < s.nidx.toNat) ∨ (i = .unpack ∧ (264 < s.blen.toNat ∨ s.blen.toNat % 11 ≠ 0)) ∨
    (i = .tobytes ∧ 264 < s.blen.toNat) ∨ (i = .split ∧ s.blen.toNat ≠ 264) ∨
    ((∃ x, i = .append3 x) ∧ s.blen.toNat ≠ 253) ∨ ((i = .csum ∨ i = .verify) ∧ s.buflen.toNat ≠ 32) →
    exec i s = .next (raise .eLength s))

/-- No step stops the machine: from every state, reached or not, a step answers a next state (R164, R196; that a step
with nothing pending is idle is the model's own choice, log entry 7). -/
def Obligations.EveryStepCompletes : Prop := ∀ s : State, ∃ t, step s = .next t

/-! ## 70_reset_and_hazards.md: reset and hazards -/

/-- R190: reset sets every register to its R38 value at once, and is the only step that clears FAULT or makes a data
register element unwritten. -/
def Obligations.OnlyResetUnwritesOrClearsFault : Prop :=
  (∀ (s : State) (rest : List HostEvent), s.pending = .reset :: rest →
    ∃ t, step s = .next t ∧ sameDataAndControl State.reset t ∧ t.status = State.reset.status ∧ t.pending = rest) ∧
  (∀ s t : State, step s = .next t → s.pending.head? ≠ some .reset →
    keepsWritten s t ∧ (s.status.fault = true → t.status.fault = true))

/-- R192: a command whose operands are in place completes without a fault, from reset on with no initialisation; one
whose operands are not in place faults E_LENGTH or E_UNINIT. (JOIN with D above 23 is R111's own fault.) -/
def Obligations.CommandsRunExactlyWhenReady : Prop :=
  ∀ (i : Instr) (s : State), i.wellFormed = true → s.status.fault = false →
    (ready i s → ∃ t, exec i s = .next t ∧ t.status.fault = false) ∧
    (¬ ready i s → ∃ t, exec i s = .next t ∧ t.status.fault = true ∧
      (t.status.fcode = .eLength ∨ t.status.fcode = .eUninit))

/-- R194: a command leaves every register it does not overwrite as the host reads it; STATUS too, but for VERIFY's
MATCH, unless the command faults; and never touches the host's own lists. -/
def Obligations.CommandsOverwriteOnlyTheirRegisters : Prop :=
  ∀ (i : Instr) (s t : State), exec i s = .next t →
    (∀ r, ¬ overwrites i s r → r ≠ .status → readReg r t = readReg r s) ∧
    (i ≠ .verify → t.status.matched = s.status.matched) ∧
    (ready i s → t.status.fault = s.status.fault ∧ t.status.fcode = s.status.fcode) ∧
    t.pending = s.pending ∧ t.reads = s.reads
end

