-- ==== Sys2Proof/Laws/Bits.lean ====
section
/-! SUPPORT. The laws of bit strings: a value and its string determine each other, and a string and its fields determine each other. -/

namespace Sys2Proof.Machine

@[simp] theorem length_bin (w v : Nat) : (bin w v).length = w := by simp [bin]

@[simp] theorem length_zeros (k : Nat) : (zeros k).length = k := by simp [zeros]

theorem getElem_bin (w v j : Nat) (h : j < (bin w v).length) : (bin w v)[j] = v.testBit (w - 1 - j) := by
  simp [bin]

theorem val_append (s t : BitString) : val (s ++ t) = val s * 2 ^ t.length + val t := by
  induction s with
  | nil => simp [val]
  | cons b s ih => simp [val, ih, Nat.add_mul, Nat.pow_add, Nat.mul_assoc, Nat.add_assoc]

theorem val_lt (s : BitString) : val s < 2 ^ s.length := by
  induction s with
  | nil => simp [val]
  | cons b s ih =>
    have hb : b.toNat ≤ 1 := Bool.toNat_le b
    have : b.toNat * 2 ^ s.length ≤ 1 * 2 ^ s.length := Nat.mul_le_mul_right _ hb
    simp only [val, List.length_cons, Nat.pow_succ]
    omega

/-- The first bit of a (w+1)-bit string is bit w of the value, and the rest is the w-bit string. -/
theorem bin_succ (w v : Nat) : bin (w + 1) v = v.testBit w :: bin w v := by
  apply List.ext_getElem
  · simp
  · intro j h₁ h₂
    rcases j with _ | j
    · simp [getElem_bin]
    · simp only [List.getElem_cons_succ, getElem_bin] at *
      congr 1
      omega

theorem val_bin_mod (w v : Nat) : val (bin w v) = v % 2 ^ w := by
  induction w with
  | zero => simp [bin, val, Nat.mod_one]
  | succ w ih =>
    rw [bin_succ, val, ih, length_bin, Nat.pow_succ, Nat.mod_mul, Nat.toNat_testBit]
    ring

/-- A value that fits its width is the value of its string (R11). -/
theorem val_bin (w v : Nat) (h : v < 2 ^ w) : val (bin w v) = v := by
  rw [val_bin_mod, Nat.mod_eq_of_lt h]

/-- A string is the string of its value (R11). -/
theorem bin_val (s : BitString) : bin s.length (val s) = s := by
  induction s with
  | nil => simp [bin]
  | cons b s ih =>
    have hs := val_lt s
    have hbit : (b.toNat * 2 ^ s.length + val s).testBit s.length = b := by
      have hd : (b.toNat * 2 ^ s.length + val s) / 2 ^ s.length = b.toNat := by
        rw [Nat.add_comm, Nat.add_mul_div_right _ _ (Nat.two_pow_pos _), Nat.div_eq_of_lt hs, Nat.zero_add]
      rw [Nat.testBit_eq_decide_div_mod_eq, hd]
      cases b <;> rfl
    have hrest : bin s.length (b.toNat * 2 ^ s.length + val s) = bin s.length (val s) := by
      apply List.ext_getElem
      · simp
      · intro j h₁ h₂
        have hj : j < s.length := by simpa using h₂
        simp only [getElem_bin]
        cases b
        · simp
        · rw [Bool.toNat_true, Nat.one_mul, Nat.testBit_two_pow_add_gt (by omega)]
    rw [List.length_cons, bin_succ, val, hbit, hrest, ih]

theorem val_zeros (k : Nat) : val (zeros k) = 0 := by
  induction k with
  | zero => rfl
  | succ k ih => rw [zeros, List.replicate_succ, val, ← zeros, ih]; simp

/-! ## Fields of a string -/

theorem length_substr (s : BitString) (a b : Nat) (hab : a ≤ b + 1) (hb : b < s.length) :
    (substr s a b).length = b + 1 - a := by
  simp only [substr, List.length_take, List.length_drop]
  omega

/-- The w-bit fields of a string, put back together, are the part of the string they cover. -/
theorem flatMap_fields (w n : Nat) (p : BitString) (h : w * n ≤ p.length) :
    ((List.range n).flatMap fun k => (p.drop (w * k)).take w) = p.take (w * n) := by
  induction n with
  | zero => simp
  | succ n ih =>
    have h' : w * n + w ≤ p.length := by rw [Nat.mul_succ] at h; exact h
    rw [List.range_succ, List.flatMap_append, ih (by omega), List.flatMap_singleton, Nat.mul_succ, List.take_add]

/-- Field i of equally long pieces put together is piece i. -/
theorem field_flatMap {α : Type} (w : Nat) (f : α → BitString) (hf : ∀ x, (f x).length = w) (xs : List α) (i : Nat)
    (h : i < xs.length) : ((xs.flatMap f).drop (w * i)).take w = f xs[i] := by
  induction xs generalizing i with
  | nil => simp at h
  | cons x xs ih =>
    rcases i with _ | i
    · simp [List.flatMap_cons, hf]
    · have hi : i < xs.length := by simpa using h
      have hd : w * (i + 1) - w = w * i := by rw [Nat.mul_succ]; omega
      rw [List.flatMap_cons, List.drop_append, hf, hd, List.drop_eq_nil_of_le (by rw [hf, Nat.mul_succ]; omega),
        List.nil_append, ih i hi, List.getElem_cons_succ]

theorem length_flatMap_const {α : Type} (w : Nat) (f : α → BitString) (hf : ∀ x, (f x).length = w) (xs : List α) :
    (xs.flatMap f).length = w * xs.length := by
  induction xs with
  | nil => simp
  | cons x xs ih => rw [List.flatMap_cons, List.length_append, ih, hf, List.length_cons, Nat.mul_succ]; omega

@[simp] theorem length_packIndices (xs : List Idx) : (packIndices xs).length = 11 * xs.length := by
  rw [packIndices]
  exact length_flatMap_const 11 (fun x : Idx => bin 11 x.toNat) (fun x => length_bin 11 x.toNat) xs

@[simp] theorem length_bytesToBits (bs : List Byte) : (bytesToBits bs).length = 8 * bs.length := by
  rw [bytesToBits]
  exact length_flatMap_const 8 (fun x : Byte => bin 8 x.toNat) (fun x => length_bin 8 x.toNat) bs

theorem substr_index (s : BitString) (i : Nat) : substr s (11 * i) (11 * i + 10) = (s.drop (11 * i)).take 11 := by
  simp only [substr]; congr 1; omega

theorem substr_byte (s : BitString) (k : Nat) : substr s (8 * k) (8 * k + 7) = (s.drop (8 * k)).take 8 := by
  simp only [substr]; congr 1; omega

theorem bin_indexOf (s : BitString) (i : Nat) (h : 11 * i + 11 ≤ s.length) :
    bin 11 (indexOf s i).toNat = (s.drop (11 * i)).take 11 := by
  have hl : ((s.drop (11 * i)).take 11).length = 11 := by simp; omega
  have hv := val_lt ((s.drop (11 * i)).take 11)
  rw [hl] at hv
  rw [indexOf, substr_index, BitVec.toNat_ofNat, Nat.mod_eq_of_lt hv]
  conv_rhs => rw [← bin_val ((s.drop (11 * i)).take 11), hl]

theorem bin_byteOf (s : BitString) (k : Nat) (h : 8 * k + 8 ≤ s.length) :
    bin 8 (byteOf s k).toNat = (s.drop (8 * k)).take 8 := by
  have hl : ((s.drop (8 * k)).take 8).length = 8 := by simp; omega
  have hv := val_lt ((s.drop (8 * k)).take 8)
  rw [hl] at hv
  rw [byteOf, substr_byte, BitVec.toNat_ofNat, Nat.mod_eq_of_lt hv]
  conv_rhs => rw [← bin_val ((s.drop (8 * k)).take 8), hl]

/-- Index i of packed indices is index i (R102). -/
theorem indexOf_packIndices (xs : List Idx) (i : Nat) (h : i < xs.length) : indexOf (packIndices xs) i = xs[i] := by
  rw [indexOf, substr_index, packIndices, field_flatMap 11 (fun x : Idx => bin 11 x.toNat) (fun x => length_bin 11 x.toNat) xs i h,
    val_bin _ _ (xs[i]).isLt, BitVec.ofNat_toNat, BitVec.setWidth_eq]

/-- Byte k of the string of bytes is byte k (R12). -/
theorem byteOf_bytesToBits (bs : List Byte) (k : Nat) (h : k < bs.length) : byteOf (bytesToBits bs) k = bs[k] := by
  rw [byteOf, substr_byte, bytesToBits, field_flatMap 8 (fun x : Byte => bin 8 x.toNat) (fun x => length_bin 8 x.toNat) bs k h,
    val_bin _ _ (bs[k]).isLt, BitVec.ofNat_toNat, BitVec.setWidth_eq]

theorem flatMap_congr_range {α : Type} (n : Nat) (f g : Nat → List α) (h : ∀ k, k < n → f k = g k) :
    (List.range n).flatMap f = (List.range n).flatMap g := by
  induction n with
  | zero => simp
  | succ n ih =>
    rw [List.range_succ, List.flatMap_append, List.flatMap_append, ih fun k hk => h k (by omega),
      List.flatMap_singleton, List.flatMap_singleton, h n (by omega)]

/-- The bytes of a string give the string back, as far as they go (R12). -/
theorem bytesToBits_byteOf (s : BitString) (n : Nat) (h : 8 * n ≤ s.length) :
    bytesToBits ((List.range n).map (byteOf s)) = s.take (8 * n) := by
  rw [bytesToBits, List.flatMap_map, ← flatMap_fields 8 n s h]
  exact flatMap_congr_range n _ _ fun k hk => bin_byteOf s k (by omega)

/-- The indices of a string give the string back, as far as they go (R104). -/
theorem packIndices_indexOf (s : BitString) (n : Nat) (h : 11 * n ≤ s.length) :
    packIndices ((List.range n).map (indexOf s)) = s.take (11 * n) := by
  rw [packIndices, List.flatMap_map, ← flatMap_fields 11 n s h]
  exact flatMap_congr_range n _ _ fun k hk => bin_indexOf s k (by omega)

/-- A byte of a string depends on its own eight positions only. -/
theorem byteOf_congr (s t : BitString) (k : Nat)
    (h : (s.drop (8 * k)).take 8 = (t.drop (8 * k)).take 8) : byteOf s k = byteOf t k := by
  rw [byteOf, byteOf, substr_byte, substr_byte, h]

/-! ## Lists of elements -/

@[simp] theorem length_toList_tabulate {α : Type} (n : Nat) (f : Nat → α) : (tabulate n f).toList.length = n := by simp

@[simp] theorem getElem_tabulate {α : Type} (n : Nat) (f : Nat → α) (i : Nat) (h : i < n) : (tabulate n f)[i] = f i := by
  simp [tabulate]

@[simp] theorem toList_tabulate {α : Type} (n : Nat) (f : Nat → α) : (tabulate n f).toList = (List.range n).map f := by
  simp [tabulate, Vector.toList]

theorem gather_map_some {α : Type} (xs : List α) : gather (xs.map some) = some xs := by
  induction xs with
  | nil => rfl
  | cons x xs ih => simp [gather, ih]

/-- Gathering succeeds exactly when every element is written, and then gives their values in order. -/
theorem gather_eq_some {α : Type} (es : List (Option α)) (xs : List α) : gather es = some xs ↔ es = xs.map some := by
  constructor
  · induction es generalizing xs with
    | nil => intro h; simp [gather] at h; simp [← h]
    | cons e es ih =>
      intro h
      cases e with
      | none => simp [gather] at h
      | some x =>
        cases hg : gather es with
        | none => simp [gather, hg] at h
        | some ys =>
          simp only [gather, hg, Option.some.injEq] at h
          simp [← h, ih ys hg]
  · rintro rfl
    exact gather_map_some xs

theorem gather_eq_none {α : Type} (es : List (Option α)) : gather es = none ↔ none ∈ es := by
  induction es with
  | nil => simp [gather]
  | cons e es ih =>
    cases e with
    | none => simp [gather]
    | some x => cases hg : gather es <;> simp [gather, hg, ← ih]

end Sys2Proof.Machine
end

