-- ==== Sys2Proof/Laws/Encoding.lean ====
section
/-! SUPPORT. The fields of a command word as numbers, and what the encoder puts into them. -/

namespace Sys2Proof

theorem opField_toNat (w : Word16) : (opField w).toNat = w.toNat % 16 := by
  simp [opField, BitVec.extractLsb'_toNat]

theorem tField_toNat (w : Word16) : (tField w).toNat = w.toNat / 16 % 8 := by
  simp [tField, BitVec.extractLsb'_toNat, Nat.shiftRight_eq_div_pow]

theorem reservedLow_toNat (w : Word16) : (reservedLow w).toNat = w.toNat / 128 % 2 := by
  simp [reservedLow, BitVec.extractLsb'_toNat, Nat.shiftRight_eq_div_pow]

theorem dField_toNat (w : Word16) : (dField w).toNat = w.toNat / 256 % 32 := by
  simp [dField, BitVec.extractLsb'_toNat, Nat.shiftRight_eq_div_pow]

theorem reservedHigh_toNat (w : Word16) : (reservedHigh w).toNat = w.toNat / 8192 := by
  have := w.isLt
  simp [reservedHigh, BitVec.extractLsb'_toNat, Nat.shiftRight_eq_div_pow]
  omega

/-- A word is made of its five fields (R71). -/
theorem word_of_fields (w : Word16) :
    w.toNat = (reservedHigh w).toNat * 8192 + (dField w).toNat * 256 + (reservedLow w).toNat * 128 +
      (tField w).toNat * 16 + (opField w).toNat := by
  rw [opField_toNat, tField_toNat, reservedLow_toNat, dField_toNat, reservedHigh_toNat]
  omega

/-- The encoder's word as a number (R71). -/
theorem encode_toNat (i : Instr) :
    (encode i).toNat = i.dBits.toNat * 256 + i.tBits.toNat * 16 + i.opcode.toNat := by
  cases i with
  | join d t => revert d t; decide
  | append3 t => revert t; decide
  | _ => decide

end Sys2Proof
end

