-- ==== Sys2Proof/Laws/State.lean ====
section
/-! SUPPORT. One lemma per field per update of the state, so that no later proof unfolds one. -/

namespace Sys2Proof.Machine

section
variable (s : State) (c : FaultCode) (m : Bool) (b : BitString)

@[simp] theorem setMatch_idx : (s.setMatch m).idx = s.idx := rfl
@[simp] theorem setMatch_nidx : (s.setMatch m).nidx = s.nidx := rfl
@[simp] theorem setMatch_bitb : (s.setMatch m).bitb = s.bitb := rfl
@[simp] theorem setMatch_blen : (s.setMatch m).blen = s.blen := rfl
@[simp] theorem setMatch_buf : (s.setMatch m).buf = s.buf := rfl
@[simp] theorem setMatch_buflen : (s.setMatch m).buflen = s.buflen := rfl
@[simp] theorem setMatch_cs : (s.setMatch m).cs = s.cs := rfl
@[simp] theorem setMatch_claim : (s.setMatch m).claim = s.claim := rfl
@[simp] theorem setMatch_matched : (s.setMatch m).status.matched = m := rfl
@[simp] theorem setMatch_fault : (s.setMatch m).status.fault = s.status.fault := rfl
@[simp] theorem setMatch_fcode : (s.setMatch m).status.fcode = s.status.fcode := rfl
@[simp] theorem setMatch_pending : (s.setMatch m).pending = s.pending := rfl
@[simp] theorem setMatch_reads : (s.setMatch m).reads = s.reads := rfl

@[simp] theorem store_idx : (store b s).idx = s.idx := rfl
@[simp] theorem store_nidx : (store b s).nidx = s.nidx := rfl
@[simp] theorem store_blen : (store b s).blen = BitVec.ofNat 9 b.length := rfl
@[simp] theorem store_buf : (store b s).buf = s.buf := rfl
@[simp] theorem store_buflen : (store b s).buflen = s.buflen := rfl
@[simp] theorem store_cs : (store b s).cs = s.cs := rfl
@[simp] theorem store_claim : (store b s).claim = s.claim := rfl
@[simp] theorem store_status : (store b s).status = s.status := rfl
@[simp] theorem store_pending : (store b s).pending = s.pending := rfl
@[simp] theorem store_reads : (store b s).reads = s.reads := rfl

/-- A raise while FAULT = 1 changes nothing (R163). -/
theorem raise_of_fault (h : s.status.fault = true) : raise c s = s := by simp [raise, h]

/-- A raise while FAULT = 0 is the fault entry of R163. -/
theorem raise_of_no_fault (h : s.status.fault = false) :
    raise c s = { s with status := { s.status with fault := true, fcode := c } } := by simp [raise, h]

@[simp] theorem raise_idx : (raise c s).idx = s.idx := by unfold raise; split <;> rfl
@[simp] theorem raise_nidx : (raise c s).nidx = s.nidx := by unfold raise; split <;> rfl
@[simp] theorem raise_bitb : (raise c s).bitb = s.bitb := by unfold raise; split <;> rfl
@[simp] theorem raise_blen : (raise c s).blen = s.blen := by unfold raise; split <;> rfl
@[simp] theorem raise_buf : (raise c s).buf = s.buf := by unfold raise; split <;> rfl
@[simp] theorem raise_buflen : (raise c s).buflen = s.buflen := by unfold raise; split <;> rfl
@[simp] theorem raise_cs : (raise c s).cs = s.cs := by unfold raise; split <;> rfl
@[simp] theorem raise_claim : (raise c s).claim = s.claim := by unfold raise; split <;> rfl
@[simp] theorem raise_matched : (raise c s).status.matched = s.status.matched := by unfold raise; split <;> rfl
@[simp] theorem raise_fault : (raise c s).status.fault = true := by
  unfold raise; split
  · assumption
  · rfl
@[simp] theorem raise_fcode : (raise c s).status.fcode = if s.status.fault then s.status.fcode else c := by
  unfold raise; split <;> rfl
@[simp] theorem raise_pending : (raise c s).pending = s.pending := by unfold raise; split <;> rfl
@[simp] theorem raise_reads : (raise c s).reads = s.reads := by unfold raise; split <;> rfl

@[simp] theorem resetBlock_pending : (resetBlock s).pending = s.pending := rfl
@[simp] theorem resetBlock_reads : (resetBlock s).reads = s.reads := rfl

@[simp] theorem finish_ok (t : State) : finish s (.ok t) = .next t := rfl
@[simp] theorem finish_error : finish s (.error c) = .next (raise c s) := rfl

end

end Sys2Proof.Machine
end

