-- ==== Sys2Proof/Laws/Ops.lean ====
section
/-! SUPPORT. What the shared operations can do: writing a register, loading and storing the bit string, reading indices and entropy bytes. -/

namespace Sys2Proof.Machine

theorem lt_ceilDiv_eight (k n : Nat) : k < ceilDiv n 8 ↔ 8 * k < n := by
  unfold ceilDiv; omega

/-! ## Bits of a register file -/

theorem testBit_toNat (b : Byte) (j : Nat) : b.toNat.testBit j = b.getLsbD j := rfl

/-- Position p of the string of bytes is bit 7 - (p mod 8) of byte p div 8 (R12). -/
theorem getElem?_bytesToBits (bs : List Byte) (p : Nat) :
    (bytesToBits bs)[p]? = (bs[p / 8]?).map fun b => b.getLsbD (7 - p % 8) := by
  by_cases h : p < 8 * bs.length
  · have hk : p / 8 < bs.length := by omega
    have hf := field_flatMap 8 (fun x : Byte => bin 8 x.toNat) (fun x => length_bin 8 x.toNat) bs (p / 8) hk
    have hp : (bytesToBits bs)[p]? = (((bytesToBits bs).drop (8 * (p / 8))).take 8)[p % 8]? := by
      rw [List.getElem?_take_of_lt (by omega), List.getElem?_drop]
      congr 1
      omega
    rw [hp, bytesToBits, hf, List.getElem?_eq_getElem (by simp; omega), List.getElem?_eq_getElem hk, getElem_bin]
    simp only [Option.map_some, testBit_toNat, Nat.add_one_sub_one]
  · rw [List.getElem?_eq_none (by simp; omega), List.getElem?_eq_none (by omega)]
    rfl

theorem fileBit_of_getElem (f : Vector (Option Byte) 33) (p : Nat) (h : p / 8 < 33) :
    fileBit f p = (f[p / 8]).map fun b => b.getLsbD (7 - p % 8) := by
  unfold fileBit
  rw [List.getElem?_eq_getElem (by simpa using h), Vector.getElem_toList]
  cases f[p / 8] <;> rfl

/-- Bit p of byte `byteOf s k` is position 8k + p of the string. -/
theorem getLsbD_byteOf (s : BitString) (k j : Nat) (h : 8 * k + 8 ≤ s.length) (hj : j < 8) :
    (byteOf s k).getLsbD (7 - j) = s[8 * k + j]'(by omega) := by
  have hb := bin_byteOf s k h
  have h1 : (bin 8 (byteOf s k).toNat)[j]'(by simpa using hj) = (byteOf s k).getLsbD (7 - j) := by
    rw [getElem_bin]; rfl
  rw [← h1]
  simp only [hb, List.getElem_take, List.getElem_drop]

/-- Two files whose bytes are all written are equal when their 264 bits are. -/
theorem file_ext (f g : Vector (Option Byte) 33) (hf : ∀ (k : Nat) (h : k < 33), (f[k]).isSome = true)
    (hg : ∀ (k : Nat) (h : k < 33), (g[k]).isSome = true) (h : ∀ p, p < 264 → fileBit f p = fileBit g p) : f = g := by
  apply Vector.ext
  intro k hk
  obtain ⟨x, hx⟩ := Option.isSome_iff_exists.mp (hf k hk)
  obtain ⟨y, hy⟩ := Option.isSome_iff_exists.mp (hg k hk)
  rw [hx, hy]
  congr 1
  apply BitVec.eq_of_getLsbD_eq
  intro j hj
  have h8 : (8 * k + (7 - j)) / 8 = k := by omega
  have hp := h (8 * k + (7 - j)) (by omega)
  rw [fileBit_of_getElem _ _ (by omega), fileBit_of_getElem _ _ (by omega)] at hp
  simp only [h8, hx, hy, Option.map_some, Option.some.injEq] at hp
  have h7 : 7 - (8 * k + (7 - j)) % 8 = j := by omega
  rwa [h7] at hp

/-! ## Registers -/

/-- A host write of a value that fits: the register then reads as the value, and every other register as before
(R52, R53). -/
theorem readReg_writeReg (r : Reg) (v : Word16) (s : State) (h₁ : r ≠ .cs) (h₂ : r ≠ .status) (h₃ : r ≠ .cmd)
    (hv : v.toNat < 2 ^ r.width) :
    readReg r (writeReg r v s) = some v ∧ ∀ q, q ≠ r → readReg q (writeReg r v s) = readReg q s := by
  have hset : ∀ w, w ≤ 16 → v.toNat < 2 ^ w → (v.setWidth w).setWidth 16 = v := by
    intro w hw h
    apply BitVec.eq_of_toNat_eq
    have := v.isLt
    simp only [BitVec.toNat_setWidth, Nat.mod_eq_of_lt h]
    omega
  cases r <;> simp [Reg.width] at hv <;> first | exact absurd rfl h₁ | exact absurd rfl h₂ | exact absurd rfl h₃ | skip
  all_goals
    constructor
    · simp [readReg, writeReg, hset, hv]
    · intro q hq
      cases q <;> first | rfl | simp [readReg, writeReg] at hq ⊢
      try (rw [Vector.getElem_set_ne]; intro hc; exact hq (Fin.ext hc).symm)

/-- A host write changes no STATUS and nothing on the host's side. -/
theorem writeReg_status (r : Reg) (v : Word16) (s : State) :
    (writeReg r v s).status = s.status ∧ (writeReg r v s).pending = s.pending ∧ (writeReg r v s).reads = s.reads := by
  cases r <;> exact ⟨rfl, rfl, rfl⟩

/-! ## Storing -/

theorem length_padded (b : BitString) (h : b.length ≤ 264) : (b ++ zeros (264 - b.length)).length = 264 := by
  simp; omega

theorem store_written (b : BitString) (s : State) (k : Nat) (h : k < 33) : ((store b s).bitb[k]).isSome = true := by
  simp [store]

/-- After `store b`, position p is bit p of the string, and zero beyond it (R29, R100). -/
theorem fileBit_store (b : BitString) (s : State) (hb : b.length ≤ 264) (p : Nat) (hp : p < 264) :
    fileBit (store b s).bitb p = some (b.getD p false) := by
  have hl := length_padded b hb
  rw [fileBit_of_getElem _ _ (by omega)]
  simp only [store, getElem_tabulate, Option.map_some, Option.some.injEq]
  rw [getLsbD_byteOf _ _ _ (by rw [hl]; omega) (by omega)]
  have hp8 : 8 * (p / 8) + p % 8 = p := by omega
  simp only [hp8, List.getElem_append, zeros, List.getElem_replicate]
  split
  · rename_i h; simp [h]
  · rename_i h; simp [List.getD, List.getElem?_eq_none (Nat.le_of_not_lt h)]

/-! ## Loading -/

theorem load_too_long (s : State) (h : 264 < s.blen.toNat) : load s = .error .eLength := by
  simp [load, h]

theorem gather_take_file (f : Vector (Option Byte) 33) (n : Nat) (hn : n ≤ 33)
    (h : ∀ (k : Nat) (hk : k < 33), k < n → (f[k]).isSome = true) :
    ∃ bs, gather (f.toList.take n) = some bs ∧ bs.length = n ∧
      ∀ (k : Nat) (hk : k < 33), k < n → bs[k]? = f[k] := by
  refine ⟨(List.range n).map fun k => (f.toList.getD k none).getD 0, ?_, by simp, ?_⟩
  · rw [gather_eq_some]
    apply List.ext_getElem
    · simp; omega
    · intro k h₁ h₂
      have hk : k < n := by simpa using h₂
      have := h k (by omega) hk
      obtain ⟨x, hx⟩ := Option.isSome_iff_exists.mp this
      have hd : f.toList.getD k none = some x := by
        rw [List.getD_eq_getElem?_getD, List.getElem?_eq_getElem (by simp; omega), Vector.getElem_toList, hx]; rfl
      simp only [List.getElem_take, Vector.getElem_toList, hx, List.map_map, List.getElem_map, List.getElem_range,
        Function.comp_apply, hd, Option.getD_some]
  · intro k hk hkn
    obtain ⟨x, hx⟩ := Option.isSome_iff_exists.mp (h k hk hkn)
    have hd : f.toList.getD k none = some x := by
      rw [List.getD_eq_getElem?_getD, List.getElem?_eq_getElem (by simp; omega), Vector.getElem_toList, hx]; rfl
    rw [hx, List.getElem?_map, List.getElem?_range hkn, Option.map_some, hd]
    rfl

theorem gather_take_none {α : Type} {m : Nat} (f : Vector (Option α) m) (n k : Nat) (hk : k < m) (hkn : k < n)
    (h : f[k] = none) : gather (f.toList.take n) = none := by
  rw [gather_eq_none]
  have hl : k < (f.toList.take n).length := by simp; omega
  have : (f.toList.take n)[k] = none := by simp [h]
  exact this ▸ List.getElem_mem hl

/-- A written string loads, and its bits are those of the store. -/
theorem load_written (s : State) (hl : s.blen.toNat ≤ 264) (hw : s.storeWritten) :
    ∃ b, load s = .ok b ∧ b.length = s.blen.toNat ∧
      ∀ (p : Nat) (h : p < b.length), fileBit s.bitb p = some b[p] := by
  have hn : ceilDiv s.blen.toNat 8 ≤ 33 := by unfold ceilDiv; omega
  obtain ⟨bs, hg, hbl, hbs⟩ := gather_take_file s.bitb (ceilDiv s.blen.toNat 8) hn
    fun k hk hkn => hw k hk ((lt_ceilDiv_eight _ _).mp hkn)
  have hL : s.blen.toNat ≤ (bytesToBits bs).length := by
    rw [length_bytesToBits, hbl]; unfold ceilDiv; omega
  refine ⟨(bytesToBits bs).take s.blen.toNat, ?_, ?_, ?_⟩
  · simp [load, Nat.not_lt.mpr hl, hg]
  · rw [List.length_take]; omega
  · intro p h
    have hp : p < s.blen.toNat := by rw [List.length_take] at h; omega
    have hk : p / 8 < ceilDiv s.blen.toNat 8 := by rw [lt_ceilDiv_eight]; omega
    rw [fileBit_of_getElem _ _ (by omega), ← hbs (p / 8) (by omega) hk, ← getElem?_bytesToBits,
      List.getElem_take, List.getElem?_eq_getElem]

/-- A string with an unwritten byte does not load. -/
theorem load_unwritten (s : State) (hl : s.blen.toNat ≤ 264) (hw : ¬ s.storeWritten) : load s = .error .eUninit := by
  simp only [State.storeWritten, not_forall] at hw
  obtain ⟨k, hk, hlt, hnone⟩ := hw
  have hg := gather_take_none s.bitb (ceilDiv s.blen.toNat 8) k hk ((lt_ceilDiv_eight _ _).mpr hlt) (by simpa using hnone)
  simp [load, Nat.not_lt.mpr hl, hg]

/-- A stored string loads again (R100). -/
theorem load_store (b : BitString) (s : State) (hb : b.length ≤ 264) : load (store b s) = .ok b := by
  have hbl : (BitVec.ofNat 9 b.length).toNat = b.length := by rw [BitVec.toNat_ofNat, Nat.mod_eq_of_lt (by omega)]
  obtain ⟨c, hc, hlen, hbits⟩ := load_written (store b s) (by rw [store_blen, hbl]; exact hb)
    fun k hk _ => store_written b s k hk
  rw [store_blen, hbl] at hlen
  rw [hc]
  congr 1
  apply List.ext_getElem hlen
  intro p h₁ h₂
  have := hbits p h₁
  rw [fileBit_store b s hb p (by omega)] at this
  simpa [h₂] using this.symm

/-- What `load` answers, said once. -/
theorem load_cases (s : State) :
    (264 < s.blen.toNat ∧ load s = .error .eLength) ∨
    (s.blen.toNat ≤ 264 ∧ ¬ s.storeWritten ∧ load s = .error .eUninit) ∨
    (s.blen.toNat ≤ 264 ∧ s.storeWritten ∧ ∃ b, load s = .ok b ∧ b.length = s.blen.toNat ∧
      ∀ (p : Nat) (h : p < b.length), fileBit s.bitb p = some b[p]) := by
  by_cases hl : s.blen.toNat ≤ 264
  · by_cases hw : s.storeWritten
    · exact .inr (.inr ⟨hl, hw, load_written s hl hw⟩)
    · exact .inr (.inl ⟨hl, hw, load_unwritten s hl hw⟩)
  · exact .inl ⟨by omega, load_too_long s (by omega)⟩

/-! ## Indices and entropy bytes -/

theorem idxVal_eq (s : State) (i : Nat) (h : i < 24) : s.idxVal i = (s.idx[i]).getD 0 := by
  simp [State.idxVal, h]

theorem idx_eq_some_idxVal (s : State) (i : Nat) (h : i < 24) (hw : (s.idx[i]).isSome = true) :
    s.idx[i] = some (s.idxVal i) := by
  obtain ⟨x, hx⟩ := Option.isSome_iff_exists.mp hw
  rw [idxVal_eq s i h, hx]
  rfl

theorem readIndices_written (n : Nat) (s : State) (hn : n ≤ 24) (hw : s.indicesWritten n) :
    readIndices n s = .ok ((List.range n).map s.idxVal) := by
  have hg : gather (s.idx.toList.take n) = some ((List.range n).map s.idxVal) := by
    rw [gather_eq_some]
    apply List.ext_getElem
    · simp; omega
    · intro i h₁ h₂
      have hi : i < n := by simpa using h₂
      simp only [List.getElem_take, Vector.getElem_toList, List.map_map, List.getElem_map, List.getElem_range,
        Function.comp_apply]
      exact idx_eq_some_idxVal s i (by omega) (hw i (by omega) hi)
  simp [readIndices, hg]

theorem readIndices_unwritten (n : Nat) (s : State) (hw : ¬ s.indicesWritten n) : readIndices n s = .error .eUninit := by
  simp only [State.indicesWritten, not_forall] at hw
  obtain ⟨k, hk, hlt, hnone⟩ := hw
  have hg := gather_take_none s.idx n k hk hlt (by simpa using hnone)
  simp [readIndices, hg]

theorem buf_eq_some (s : State) (k : Nat) (h : k < 33) (hw : (s.buf[k]).isSome = true) :
    s.buf[k] = some ((s.buf.toList.getD k none).getD 0) := by
  obtain ⟨x, hx⟩ := Option.isSome_iff_exists.mp hw
  have hd : s.buf.toList.getD k none = some x := by
    rw [List.getD_eq_getElem?_getD, List.getElem?_eq_getElem (by simp; omega), Vector.getElem_toList, hx]; rfl
  rw [hd, hx]
  rfl

theorem readEntropy_length (s : State) (h : s.buflen.toNat ≠ 32) : readEntropy s = .error .eLength := by
  simp [readEntropy, h]

theorem readEntropy_written (s : State) (hl : s.buflen.toNat = 32) (hw : s.entropyWritten) :
    readEntropy s = .ok s.entropyBytes.toList := by
  have he : s.entropyBytes.toList = (List.range 32).map fun k => (s.buf.toList.getD k none).getD 0 := toList_tabulate _ _
  have hg : gather (s.buf.toList.take 32) = some s.entropyBytes.toList := by
    rw [gather_eq_some, he]
    apply List.ext_getElem
    · simp
    · intro k h₁ h₂
      have hk : k < 32 := by simpa using h₂
      simp only [List.getElem_take, Vector.getElem_toList, List.map_map, List.getElem_map, List.getElem_range,
        Function.comp_apply]
      exact buf_eq_some s k (by omega) (hw k (by omega) hk)
  simp [readEntropy, hl, hg]

theorem readEntropy_unwritten (s : State) (hl : s.buflen.toNat = 32) (hw : ¬ s.entropyWritten) :
    readEntropy s = .error .eUninit := by
  simp only [State.entropyWritten, not_forall] at hw
  obtain ⟨k, hk, hlt, hnone⟩ := hw
  have hg := gather_take_none s.buf 32 k hk hlt (by simpa using hnone)
  simp [readEntropy, hl, hg]

theorem entropyVector_toList (v : Vector Byte 32) : entropyVector v.toList = v := by
  apply Vector.ext
  intro k hk
  rw [entropyVector, getElem_tabulate, List.getD_eq_getElem?_getD, List.getElem?_eq_getElem (by simpa using hk),
    Vector.getElem_toList]
  rfl

end Sys2Proof.Machine
end

