-- ==== Sys2Proof/Laws/Exec.lean ====
section
/-! SUPPORT. What each command can do, said once: the faults it raises, in their order, or the state it leaves. Later proofs cite these instead of unfolding a meaning. -/

namespace Sys2Proof.Machine

/-- The state PACK leaves. -/
def packed (s : State) : State := store (packIndices ((List.range s.nidx.toNat).map s.idxVal)) s

theorem exec_pack_cases (s : State) :
    (24 < s.nidx.toNat ∧ exec .pack s = .next (raise .eLength s)) ∨
    (s.nidx.toNat ≤ 24 ∧ ¬ s.indicesWritten s.nidx.toNat ∧ exec .pack s = .next (raise .eUninit s)) ∨
    (ready .pack s ∧ exec .pack s = .next (packed s)) := by
  by_cases hl : s.nidx.toNat ≤ 24
  · have hl' : ¬ 24 < s.nidx.toNat := by omega
    by_cases hw : s.indicesWritten s.nidx.toNat
    · exact .inr (.inr ⟨⟨hl, hw⟩, by simp [exec, execPack, hl', readIndices_written _ s hl hw, packed]⟩)
    · exact .inr (.inl ⟨hl, hw, by simp [exec, execPack, hl', readIndices_unwritten _ s hw]⟩)
  · exact .inl ⟨by omega, by simp [exec, execPack, Nat.lt_of_not_le hl]⟩

/-- The state UNPACK leaves, for the loaded string b. -/
def unpacked (b : BitString) (s : State) : State :=
  { s with
    idx := tabulate 24 fun i => if i < s.blen.toNat / 11 then some (indexOf b i) else s.idx.toList.getD i none
    nidx := BitVec.ofNat 5 (s.blen.toNat / 11) }

theorem exec_unpack_cases (s : State) :
    ((264 < s.blen.toNat ∨ s.blen.toNat % 11 ≠ 0) ∧ exec .unpack s = .next (raise .eLength s)) ∨
    (s.blen.toNat ≤ 264 ∧ s.blen.toNat % 11 = 0 ∧ ¬ s.storeWritten ∧ exec .unpack s = .next (raise .eUninit s)) ∨
    (ready .unpack s ∧ ∃ b, load s = .ok b ∧ exec .unpack s = .next (unpacked b s)) := by
  by_cases hl : 264 < s.blen.toNat ∨ s.blen.toNat % 11 ≠ 0
  · exact .inl ⟨hl, by simp [exec, execUnpack, hl]⟩
  · have h₁ : s.blen.toNat ≤ 264 := by omega
    have h₂ : s.blen.toNat % 11 = 0 := by omega
    have h₁' : ¬ 264 < s.blen.toNat := by omega
    rcases load_cases s with ⟨h, -⟩ | ⟨-, hw, h⟩ | ⟨-, hw, b, h, -⟩
    · omega
    · exact .inr (.inl ⟨h₁, h₂, hw, by simp [exec, execUnpack, h₁', h₂, h]⟩)
    · exact .inr (.inr ⟨⟨h₁, h₂, hw⟩, b, h, by simp [exec, execUnpack, h₁', h₂, h, unpacked]⟩)

/-- The state TOBYTES leaves, for the loaded string b. -/
def bytesLoaded (b : BitString) (s : State) : State :=
  { s with
    buf := tabulate 33 fun k => some
      (if k < ceilDiv s.blen.toNat 8 then byteOf (b ++ zeros (8 * ceilDiv s.blen.toNat 8 - s.blen.toNat)) k else 0)
    buflen := BitVec.ofNat 6 (ceilDiv s.blen.toNat 8) }

theorem exec_tobytes_cases (s : State) :
    (264 < s.blen.toNat ∧ exec .tobytes s = .next (raise .eLength s)) ∨
    (s.blen.toNat ≤ 264 ∧ ¬ s.storeWritten ∧ exec .tobytes s = .next (raise .eUninit s)) ∨
    (ready .tobytes s ∧ ∃ b, load s = .ok b ∧ exec .tobytes s = .next (bytesLoaded b s)) := by
  rcases load_cases s with ⟨hl, -⟩ | ⟨hl, hw, h⟩ | ⟨hl, hw, b, h, -⟩
  · exact .inl ⟨hl, by simp [exec, execTobytes, hl]⟩
  · exact .inr (.inl ⟨hl, hw, by simp [exec, execTobytes, Nat.not_lt.mpr hl, h]⟩)
  · exact .inr (.inr ⟨⟨hl, hw⟩, b, h, by simp [exec, execTobytes, Nat.not_lt.mpr hl, h, bytesLoaded]⟩)

/-- The state SPLIT leaves, for the loaded string b. -/
def splitInto (b : BitString) (s : State) : State :=
  store (substr b 0 255) { s with claim := some (BitVec.ofNat 8 (val (substr b 256 263))) }

theorem exec_split_cases (s : State) :
    (s.blen.toNat ≠ 264 ∧ exec .split s = .next (raise .eLength s)) ∨
    (s.blen.toNat = 264 ∧ ¬ s.storeWritten ∧ exec .split s = .next (raise .eUninit s)) ∨
    (ready .split s ∧ ∃ b, load s = .ok b ∧ exec .split s = .next (splitInto b s)) := by
  by_cases hl : s.blen.toNat = 264
  · rcases load_cases s with ⟨h, -⟩ | ⟨-, hw, h⟩ | ⟨-, hw, b, h, -⟩
    · omega
    · exact .inr (.inl ⟨hl, hw, by simp [exec, execSplit, hl, h]⟩)
    · exact .inr (.inr ⟨⟨hl, hw⟩, b, h, by simp [exec, execSplit, hl, h, splitInto]⟩)
  · exact .inl ⟨hl, by simp [exec, execSplit, hl]⟩

theorem exec_append3_cases (t : BitVec 3) (s : State) :
    (s.blen.toNat ≠ 253 ∧ exec (.append3 t) s = .next (raise .eLength s)) ∨
    (s.blen.toNat = 253 ∧ ¬ s.storeWritten ∧ exec (.append3 t) s = .next (raise .eUninit s)) ∨
    (ready (.append3 t) s ∧ ∃ b, load s = .ok b ∧ exec (.append3 t) s = .next (store (b ++ tailString t) s)) := by
  by_cases hl : s.blen.toNat = 253
  · rcases load_cases s with ⟨h, -⟩ | ⟨-, hw, h⟩ | ⟨-, hw, b, h, -⟩
    · omega
    · exact .inr (.inl ⟨hl, hw, by simp [exec, execAppend3, hl, h]⟩)
    · exact .inr (.inr ⟨⟨hl, hw⟩, b, h, by simp [exec, execAppend3, hl, h]⟩)
  · exact .inl ⟨hl, by simp [exec, execAppend3, hl]⟩

theorem joinIndex_le (t : BitVec 3) (c : Byte) : joinIndex t c ≤ 2047 := by
  have := t.isLt; have := c.isLt; unfold joinIndex; omega

theorem exec_join_cases (d : BitVec 5) (t : BitVec 3) (s : State) :
    (24 ≤ d.toNat ∧ exec (.join d t) s = .next (raise .eRange s)) ∨
    (d.toNat < 24 ∧ s.cs = none ∧ exec (.join d t) s = .next (raise .eUninit s)) ∨
    (∃ (h : d.toNat < 24) (c : Byte), s.cs = some c ∧
      exec (.join d t) s = .next { s with idx := s.idx.set d.toNat (some (BitVec.ofNat 11 (joinIndex t c))) }) := by
  by_cases hd : d.toNat < 24
  · cases hc : s.cs with
    | none => exact .inr (.inl ⟨hd, rfl, by simp [exec, execJoin, destReg, hd, hc]⟩)
    | some c =>
      refine .inr (.inr ⟨hd, c, rfl, ?_⟩)
      simp [exec, execJoin, destReg, hd, hc, Nat.not_lt.mpr (joinIndex_le t c)]
  · exact .inl ⟨by omega, by simp [exec, execJoin, destReg, hd]⟩

/-- The checksum of the buffer, R140 applied to BUF0..BUF31. -/
def bufferChecksum (s : State) : Byte := (Config.sha256_32 s.entropyBytes)[0]

theorem checksum_entropy (s : State) : checksum s.entropyBytes.toList = bufferChecksum s := by
  rw [checksum, entropyVector_toList, bufferChecksum]

theorem exec_csum_cases (s : State) :
    (s.buflen.toNat ≠ 32 ∧ exec .csum s = .next (raise .eLength s)) ∨
    (s.buflen.toNat = 32 ∧ ¬ s.entropyWritten ∧ exec .csum s = .next (raise .eUninit s)) ∨
    (ready .csum s ∧ exec .csum s = .next { s with cs := some (bufferChecksum s) }) := by
  by_cases hl : s.buflen.toNat = 32
  · by_cases hw : s.entropyWritten
    · exact .inr (.inr ⟨⟨hl, hw⟩, by simp [exec, execCsum, readEntropy_written s hl hw, checksum_entropy]⟩)
    · exact .inr (.inl ⟨hl, hw, by simp [exec, execCsum, readEntropy_unwritten s hl hw]⟩)
  · exact .inl ⟨hl, by simp [exec, execCsum, readEntropy_length s hl]⟩

theorem exec_verify_cases (s : State) :
    (s.buflen.toNat ≠ 32 ∧ exec .verify s = .next (raise .eLength s)) ∨
    (s.buflen.toNat = 32 ∧ (¬ s.entropyWritten ∨ s.claim = none) ∧ exec .verify s = .next (raise .eUninit s)) ∨
    (ready .verify s ∧ ∃ c, s.claim = some c ∧
      exec .verify s =
        .next (State.setMatch (bufferChecksum s == c) { s with cs := some (bufferChecksum s) })) := by
  by_cases hl : s.buflen.toNat = 32
  · by_cases hw : s.entropyWritten
    · cases hc : s.claim with
      | none =>
        exact .inr (.inl ⟨hl, .inr rfl, by simp [exec, execVerify, readEntropy_written s hl hw, hc]⟩)
      | some c =>
        refine .inr (.inr ⟨⟨hl, hw, by simp [hc]⟩, c, rfl, ?_⟩)
        simp [exec, execVerify, readEntropy_written s hl hw, hc, checksum_entropy, matchFlag]
    · exact .inr (.inl ⟨hl, .inl hw, by simp [exec, execVerify, readEntropy_unwritten s hl hw]⟩)
  · exact .inl ⟨hl, by simp [exec, execVerify, readEntropy_length s hl]⟩

/-- Every command ends in a fault raised in its starting state, or in a state with the same FAULT and FCODE, and it
never touches the host's side. -/
theorem exec_outcome (i : Instr) (s : State) :
    (∃ c, c ≠ FaultCode.none ∧ exec i s = .next (raise c s)) ∨
    (ready i s ∧ ∃ t, exec i s = .next t ∧ t.status.fault = s.status.fault ∧ t.status.fcode = s.status.fcode ∧
      t.pending = s.pending ∧ t.reads = s.reads) := by
  cases i with
  | pack =>
    rcases exec_pack_cases s with ⟨-, h⟩ | ⟨-, -, h⟩ | ⟨hr, h⟩
    · exact .inl ⟨_, by decide, h⟩
    · exact .inl ⟨_, by decide, h⟩
    · exact .inr ⟨hr, _, h, rfl, rfl, rfl, rfl⟩
  | unpack =>
    rcases exec_unpack_cases s with ⟨-, h⟩ | ⟨-, -, -, h⟩ | ⟨hr, b, -, h⟩
    · exact .inl ⟨_, by decide, h⟩
    · exact .inl ⟨_, by decide, h⟩
    · exact .inr ⟨hr, _, h, rfl, rfl, rfl, rfl⟩
  | tobytes =>
    rcases exec_tobytes_cases s with ⟨-, h⟩ | ⟨-, -, h⟩ | ⟨hr, b, -, h⟩
    · exact .inl ⟨_, by decide, h⟩
    · exact .inl ⟨_, by decide, h⟩
    · exact .inr ⟨hr, _, h, rfl, rfl, rfl, rfl⟩
  | split =>
    rcases exec_split_cases s with ⟨-, h⟩ | ⟨-, -, h⟩ | ⟨hr, b, -, h⟩
    · exact .inl ⟨_, by decide, h⟩
    · exact .inl ⟨_, by decide, h⟩
    · exact .inr ⟨hr, _, h, rfl, rfl, rfl, rfl⟩
  | append3 t =>
    rcases exec_append3_cases t s with ⟨-, h⟩ | ⟨-, -, h⟩ | ⟨hr, b, -, h⟩
    · exact .inl ⟨_, by decide, h⟩
    · exact .inl ⟨_, by decide, h⟩
    · exact .inr ⟨hr, _, h, rfl, rfl, rfl, rfl⟩
  | join d t =>
    rcases exec_join_cases d t s with ⟨-, h⟩ | ⟨-, -, h⟩ | ⟨hd, c, hc, h⟩
    · exact .inl ⟨_, by decide, h⟩
    · exact .inl ⟨_, by decide, h⟩
    · exact .inr ⟨⟨hd, by simp [hc]⟩, _, h, rfl, rfl, rfl, rfl⟩
  | csum =>
    rcases exec_csum_cases s with ⟨-, h⟩ | ⟨-, -, h⟩ | ⟨hr, h⟩
    · exact .inl ⟨_, by decide, h⟩
    · exact .inl ⟨_, by decide, h⟩
    · exact .inr ⟨hr, _, h, rfl, rfl, rfl, rfl⟩
  | verify =>
    rcases exec_verify_cases s with ⟨-, h⟩ | ⟨-, -, h⟩ | ⟨hr, c, -, h⟩
    · exact .inl ⟨_, by decide, h⟩
    · exact .inl ⟨_, by decide, h⟩
    · exact .inr ⟨hr, _, h, rfl, rfl, rfl, rfl⟩

/-- One step is one event of the host, or nothing when none is pending. -/
theorem step_of_pending (s : State) (e : HostEvent) (rest : List HostEvent) (h : s.pending = e :: rest) :
    step s = hostEvent e { s with pending := rest } := by
  simp [step, hostStep, h]

theorem step_idle (s : State) (h : s.pending = []) : step s = .next s := by
  simp [step, hostStep, h]

/-- A host event is a read, a fault, a register write, a dropped write, a command, or reset: said once. -/
theorem hostEvent_cases (e : HostEvent) (s : State) :
    (∃ a, e = .read a ∧ hostEvent e s = .next (hostRead a s)) ∨
    (e = .reset ∧ hostEvent e s = .next (resetBlock s)) ∨
    (∃ a v, e = .write a v ∧
      ((s.status.fault = true ∧ hostEvent e s = .next s) ∨
       (s.status.fault = false ∧
        ((∃ c, c ≠ FaultCode.none ∧ hostEvent e s = .next (raise c s)) ∨
         (a ≠ cmdAddr ∧ ∃ r, regAt a = some r ∧ r.hostReadOnly = false ∧ v >>> r.width = 0 ∧
            hostEvent e s = .next (writeReg r v s)) ∨
         (a = cmdAddr ∧ ∃ i, decode v = .ok i ∧ hostEvent e s = exec i s))))) := by
  cases e with
  | read a => exact .inl ⟨a, rfl, rfl⟩
  | reset => exact .inr (.inl ⟨rfl, rfl⟩)
  | write a v =>
    refine .inr (.inr ⟨a, v, rfl, ?_⟩)
    cases hf : s.status.fault with
    | true => exact .inl ⟨rfl, by by_cases ha : a = cmdAddr <;> simp [hostEvent, hostWriteCmd, hostWriteReg, hf, ha]⟩
    | false =>
      refine .inr ⟨rfl, ?_⟩
      by_cases ha : a = cmdAddr
      · cases hd : decode v with
        | error x => exact .inl ⟨decodeFault x, by cases x <;> decide, by simp [hostEvent, hostWriteCmd, hf, ha, hd]⟩
        | ok i => exact .inr (.inr ⟨ha, i, rfl, by simp [hostEvent, hostWriteCmd, hf, ha, hd]⟩)
      · cases hr : regAt a with
        | none => exact .inl ⟨.eHostAddr, by decide, by simp [hostEvent, hostWriteReg, hf, ha, hr]⟩
        | some r =>
          cases ho : r.hostReadOnly with
          | true => exact .inl ⟨.eHostAddr, by decide, by simp [hostEvent, hostWriteReg, hf, ha, hr, ho]⟩
          | false =>
            by_cases hv : v >>> r.width = 0
            · exact .inr (.inl ⟨ha, r, rfl, ho, hv, by simp [hostEvent, hostWriteReg, hf, ha, hr, ho, hv]⟩)
            · refine .inl ⟨.eHostVal, by decide, ?_⟩
              simp only [hostEvent, hostWriteReg, hf, ha, hr, ho, if_false, Bool.false_eq_true]
              rw [if_pos hv]

end Sys2Proof.Machine
end

