-- ==== Sys2Proof/Laws/PerInstr.lean ====
section
/-! SUPPORT. Statements about every command as syntax, one lemma per constructor: the encoder's word lies in the command's own row of the opcode table (spec/30_encoding.md R72). -/

namespace Sys2Proof.Laws.TableRow

/-- The word of the command is selected by the row of R72 that bears its mnemonic, and by no other row. -/
def Statement (i : Instr) : Prop :=
  (opcodeTable.filter fun r => r.selects (encode i)).map (·.mnemonic) = [i.mnemonic]

theorem pack : Statement .pack := by unfold Statement; decide
theorem unpack : Statement .unpack := by unfold Statement; decide
theorem tobytes : Statement .tobytes := by unfold Statement; decide
theorem split : Statement .split := by unfold Statement; decide
theorem append3 (t : BitVec 3) : Statement (.append3 t) := by unfold Statement; revert t; decide
theorem join (d : BitVec 5) (t : BitVec 3) : Statement (.join d t) := by unfold Statement; revert d t; decide
theorem csum : Statement .csum := by unfold Statement; decide
theorem verify : Statement .verify := by unfold Statement; decide

end Sys2Proof.Laws.TableRow
end

