-- ==== Sys2Proof/Tests/Slice0.lean ====
section
/-! SUPPORT. Small tests of one command or one host transaction each, with the expected results of spec/95_test_vectors.md, and for every obligation with hypotheses a concrete input that meets them. -/

namespace Sys2Proof.Tests

open Sys2Proof Sys2Proof.Machine

/-! ## Helpers -/

/-- The next state of an outcome, if it is one. -/
def nextOf : Outcome → Option State
  | .next s => some s
  | .fault _ => none
  | .refused _ => none

/-- The file of n elements that starts with `xs` and is unwritten after them. -/
def fileOf {α : Type} (n : Nat) (xs : List α) : Vector (Option α) n := tabulate n fun k => xs[k]?

/-- After reset, IDX0.. hold `xs` and NIDX holds `n`. -/
def withIdx (xs : List Idx) (n : BitVec 5) : State := { State.reset with idx := fileOf 24 xs, nidx := n }

/-- After reset, BITB0.. hold `xs` and BLEN holds `n`. -/
def withBits (xs : List Byte) (n : BitVec 9) : State := { State.reset with bitb := fileOf 33 xs, blen := n }

/-- After reset, BUF0.. hold `xs`, BUFLEN holds `n`, and CLAIM is `c`. -/
def withBuf (xs : List Byte) (n : BitVec 6) (c : Option Byte) : State :=
  { State.reset with buf := fileOf 33 xs, buflen := n, claim := c }

/-- `s` with the events `es` still to come. -/
def doing (es : List HostEvent) (s : State) : State := { s with pending := es }

/-- `s` after a fault with code `c`. -/
def faulted (c : FaultCode) (s : State) : State := { s with status := { s.status with fault := true, fcode := c } }

/-- The bytes of the store after a command. -/
def storeAfter (i : Instr) (s : State) : Option (List (Option Byte) × Nat) :=
  (nextOf (exec i s)).map fun t => (t.bitb.toList, t.blen.toNat)

/-- The bytes of the buffer after a command. -/
def bufAfter (i : Instr) (s : State) : Option (List (Option Byte) × Nat) :=
  (nextOf (exec i s)).map fun t => (t.buf.toList, t.buflen.toNat)

/-- STATUS after a step. -/
def statusAfter (s : State) : Option Word16 := (nextOf (step s)).map fun t => t.status.word

/-! ## WellFormed -/

/-- R75: only 0..23 name a register. -/
theorem test_join_24_is_ill_formed : (Instr.join 24 0).wellFormed = false := by decide
theorem test_join_31_is_ill_formed : (Instr.join 31 7).wellFormed = false := by decide
theorem test_join_23_is_well_formed : (Instr.join 23 7).wellFormed = true := by decide

/-! ## Words written out from the patterns of R72 -/

theorem test_decode_pack : decode 0b0000000000000001 = .ok .pack := by decide
theorem test_decode_unpack : decode 0b0000000000000010 = .ok .unpack := by decide
theorem test_decode_tobytes : decode 0b0000000000000011 = .ok .tobytes := by decide
theorem test_decode_split : decode 0b0000000000000100 = .ok .split := by decide
theorem test_decode_append3 : decode 0b0000000000110101 = .ok (.append3 3) := by decide
theorem test_decode_join : decode 0b0001000101100110 = .ok (.join 17 6) := by decide
theorem test_decode_csum : decode 0b0000000000001000 = .ok .csum := by decide
theorem test_decode_verify : decode 0b0000000000001001 = .ok .verify := by decide
/-- J1's word. -/
theorem test_encode_join : encode (.join 23 7) = 0x1776 := by decide

/-- X1 to X9. -/
theorem test_decode_faults :
    decode 0x0000 = .error .eOpcode ∧ decode 0x0007 = .error .eOpcode ∧ decode 0x000F = .error .eOpcode ∧
    decode 0x0011 = .error .eField ∧ decode 0x0081 = .error .eField ∧ decode 0x2001 = .error .eField ∧
    decode 0x0105 = .error .eField ∧ decode 0x8006 = .error .eField ∧ decode 0x00F0 = .error .eOpcode := by decide

/-! ## Commands -/

/-- K7. -/
theorem test_pack_three :
    storeAfter .pack (withIdx [0x400, 0x001, 0x7FF] 3) =
      some ([0x80, 0x00, 0x07, 0xFF, 0x80].map some ++ List.replicate 28 (some 0), 33) := by decide

/-- K4: no index packed, and every byte of the store written. -/
theorem test_pack_none : storeAfter .pack (withIdx [] 0) = some (List.replicate 33 (some 0), 0) := by decide

/-- N1. -/
theorem test_unpack_two :
    (nextOf (exec .unpack (withBits [0x80, 0x00, 0x04] 22))).map (fun t => (t.idx.toList, t.nidx)) =
      some ([some 1024, some 1] ++ List.replicate 22 none, 2) := by decide

/-- N4. -/
theorem test_unpack_275 :
    exec .unpack (withBits (List.replicate 33 0xFF) 275) =
      .next (faulted .eLength (withBits (List.replicate 33 0xFF) 275)) := by rfl

/-- T1: the host's bits beyond BLEN are not copied. -/
theorem test_tobytes_pads :
    bufAfter .tobytes (withBits [0xFF, 0xFF] 11) =
      some ([0xFF, 0xE0].map some ++ List.replicate 31 (some 0), 2) := by decide

set_option maxRecDepth 8192 in
/-- T5. -/
theorem test_tobytes_253 :
    bufAfter .tobytes (withBits (List.replicate 32 0xFF) 253) =
      some (List.replicate 31 (some 0xFF) ++ [some 0xF8, some 0], 32) := by decide

set_option maxRecDepth 8192 in
/-- S2. -/
theorem test_split :
    (nextOf (exec .split (withBits (List.replicate 32 0x7F ++ [0x17]) 264))).map
      (fun t => (t.claim, t.blen, t.bitb.toList)) =
      some (some 0x17, 256, List.replicate 32 (some 0x7F) ++ [some 0]) := by decide

/-- S3. -/
theorem test_split_263 :
    exec .split (withBits (List.replicate 33 0) 263) = .next (faulted .eLength (withBits (List.replicate 33 0) 263)) := by
  rfl

set_option maxRecDepth 8192 in
/-- A1, from the store that the PACK of the 23 indices leaves. -/
theorem test_append3_seven :
    storeAfter (.append3 7) (withBits (List.replicate 31 0x7F ++ [0x78]) 253) =
      some (List.replicate 32 (some 0x7F) ++ [some 0], 256) := by decide

set_option maxRecDepth 8192 in
/-- A3. -/
theorem test_append3_five :
    storeAfter (.append3 5) (withBits (List.replicate 32 0) 253) =
      some (List.replicate 31 (some 0) ++ [some 0x05, some 0], 256) := by decide

/-- J1. -/
theorem test_join_title :
    (nextOf (exec (.join 23 7) { State.reset with cs := some 0x17 })).map (fun t => (t.idx[23], t.idx[22])) =
      some (some 1815, none) := by decide

/-- J6: E_RANGE before E_UNINIT. -/
theorem test_join_31 : exec (.join 31 0) State.reset = .next (faulted .eRange State.reset) := by rfl

/-- C7. -/
theorem test_csum_33 :
    exec .csum (withBuf (List.replicate 33 0) 33 none) =
      .next (faulted .eLength (withBuf (List.replicate 33 0) 33 none)) := by rfl

/-- C8, with BUF5 the unwritten byte. -/
theorem test_csum_unwritten :
    exec .csum { withBuf (List.replicate 33 0) 32 none with buf := (fileOf 33 (List.replicate 33 0)).set 5 none } =
      .next (faulted .eUninit
        { withBuf (List.replicate 33 0) 32 none with buf := (fileOf 33 (List.replicate 33 0)).set 5 none }) := by rfl

/-- V3: MATCH, set before, stays. -/
theorem test_verify_no_claim :
    exec .verify ((withBuf (List.replicate 32 0) 32 none).setMatch true) =
      .next (faulted .eUninit ((withBuf (List.replicate 32 0) 32 none).setMatch true)) := by rfl

/-- V1 and V2: MATCH is 1 exactly when CLAIM is the new checksum, whatever `SHA256_32` is. -/
theorem test_verify_own_checksum (c : Byte) :
    (nextOf (exec .verify (withBuf (List.replicate 32 0) 32 (some c)))).map (fun t => (t.cs, t.status.matched)) =
      some (some (Config.sha256_32 (Vector.replicate 32 0))[0], (Config.sha256_32 (Vector.replicate 32 0))[0] == c) := by
  rfl

/-! ## Host transactions -/

/-- H1: a 12-bit value for an index register. -/
theorem test_write_too_wide : statusAfter (doing [.write 0x00 0x0FFF] State.reset) = some 0x0072 := by decide
/-- H3. -/
theorem test_write_nidx_31 :
    (nextOf (step (doing [.write 0x18 0x001F] State.reset))).map (fun t => (t.nidx, t.status.fault)) = some (31, false) := by
  decide
/-- H5. -/
theorem test_write_cs : statusAfter (doing [.write 0x1B 0x0000] State.reset) = some 0x0062 := by decide
/-- H7, H12: a reserved address answers no value, and the first code stays. -/
theorem test_read_reserved :
    step (doing [.read 0x1E] State.reset) = .next { faulted .eHostAddr State.reset with reads := [none] } ∧
    step (doing [.read 0x41] (faulted .eLength State.reset)) =
      .next { faulted .eLength State.reset with reads := [none] } := ⟨rfl, rfl⟩
/-- H8, H9, H10: CMD reads 0x0000, an unwritten element has no value, STATUS is 0x0000 after reset. -/
theorem test_reads_after_reset :
    step (doing [.read 0x1F] State.reset) = .next { State.reset with reads := [some 0] } ∧
    step (doing [.read 0x05] State.reset) = .next { State.reset with reads := [none] } ∧
    step (doing [.read 0x1D] State.reset) = .next { State.reset with reads := [some 0] } := ⟨rfl, rfl, rfl⟩
/-- X4: STATUS after a decode fault. -/
theorem test_decode_fault_status : statusAfter (doing [.write 0x1F 0x0011] State.reset) = some 0x0022 := by decide
/-- H11: a command is ignored after a fault. -/
theorem test_command_after_fault :
    step (doing [.write 0x1F 0x0001] (faulted .eHostVal State.reset)) = .next (faulted .eHostVal State.reset) := rfl
/-- P2's encodings of the CANDIDATE statements for tail 0. -/
theorem test_candidate_words :
    candidate 0 = [.write 0x18 0x0017, .write 0x1F 0x0001, .write 0x1F 0x0005, .write 0x1F 0x0003, .write 0x1F 0x0008,
      .write 0x1F 0x1706] := by decide
/-- A placed word is the very next thing run. -/
theorem test_placed_pack : step (State.reset.withFetchWord 16 0x0001) = exec .pack State.reset := rfl

/-! ## Witnesses: inputs that meet the hypotheses of each obligation, at the ends of their ranges -/

/-- Everything is written, with the given NIDX, BLEN and BUFLEN. -/
def full (n : BitVec 5) (l : BitVec 9) (b : BitVec 6) : State :=
  { State.reset with
    idx := Vector.replicate 24 (some 2047), nidx := n, bitb := Vector.replicate 33 (some 0x7F), blen := l
    buf := Vector.replicate 33 (some 0x80), buflen := b, cs := some 0x17, claim := some 0x66 }

/-- Nothing is written, with the given NIDX, BLEN and BUFLEN. -/
def bare (n : BitVec 5) (l : BitVec 9) (b : BitVec 6) : State := { State.reset with nidx := n, blen := l, buflen := b }

/-- Every exec and every step of a witness answers a next state. -/
def answers (o : Outcome) : Prop := ∃ t, o = .next t

theorem witness_StringsAndValuesAreInverse :
    (0x7FF < 2 ^ 11 ∧ (0 : Nat) < 2 ^ 0) ∧ (List.replicate 264 true).length % 8 = 0 ∧ ([] : BitString).length % 8 = 0 := by
  refine ⟨by decide, ?_, rfl⟩
  rw [List.length_replicate]

theorem witness_StatusWordHasItsFields :
    (full 24 264 32).Inv ∧ (full 24 264 32).status.fault = false ∧
    (doing [.write 0x1D 0xFFFF] State.reset).pending = .write 0x1D 0xFFFF :: [] ∧
    (doing [.write 0x1D 0xFFFF] State.reset).status.fault = false := by
  refine ⟨by unfold State.Inv; decide, by decide, by decide, by decide⟩

/-- MATCH changes by a reset, and by a VERIFY started with the opposite of its result. -/
theorem witness_MatchWrittenOnlyByVerify :
    (∃ t, step (doing [.reset] (State.reset.setMatch true)) = .next t ∧ t.status.matched ≠ true) ∧
    (∃ m t, step (doing [.write 0x1F 0x0009] ((full 24 264 32).setMatch m)) = .next t ∧ t.status.matched ≠ m) := by
  refine ⟨⟨_, rfl, by decide⟩, !(checksum (List.replicate 32 0x80) == 0x66), _, rfl, ?_⟩
  show matchFlag (checksum (List.replicate 32 0x80)) 0x66 ≠ _
  simp [matchFlag]

theorem witness_FaultWrittenOnlyByFaultEntry :
    (doing [.write 0x1F 0x0001] (bare 25 0 0)).pending.head? ≠ some .reset ∧
    step (doing [.write 0x1F 0x0001] (bare 25 0 0)) = .next (faulted .eLength (bare 25 0 0)) := ⟨by decide, rfl⟩

theorem witness_FullStoreWrites :
    (ready .pack (full 24 0 0) ∧ answers (exec .pack (full 24 0 0))) ∧
    (ready .pack (bare 0 0 0) ∧ answers (exec .pack (bare 0 0 0))) ∧
    (ready .split (full 0 264 0) ∧ answers (exec .split (full 0 264 0))) ∧
    (ready (.append3 7) (full 0 253 0) ∧ answers (exec (.append3 7) (full 0 253 0))) ∧
    (ready .tobytes (full 0 264 0) ∧ answers (exec .tobytes (full 0 264 0))) ∧
    (ready .tobytes (bare 0 0 0) ∧ answers (exec .tobytes (bare 0 0 0))) := by
  refine ⟨⟨?_, _, rfl⟩, ⟨?_, _, rfl⟩, ⟨?_, _, rfl⟩, ⟨?_, _, rfl⟩, ⟨?_, _, rfl⟩, ?_, _, rfl⟩ <;> (unfold ready; decide)

set_option maxRecDepth 8192 in
/-- Two states that differ in everything a command does not read agree on its operands. -/
theorem witness_CommandsDependOnOperandsOnly :
    operandsAgree .pack (full 2 264 32) { withIdx [2047, 2047] 2 with cs := some 1 } ∧
    operandsAgree .unpack (full 0 22 0) { withBits [0x7F, 0x7F, 0x7C] 22 with claim := some 1 } ∧
    operandsAgree .tobytes (full 0 11 0) (withBits [0x7F, 0x60] 11) ∧
    operandsAgree .split (full 0 264 0) { full 3 264 9 with cs := none } ∧
    operandsAgree (.append3 1) (full 0 253 0) { full 3 253 9 with cs := none } ∧
    operandsAgree (.join 23 7) (full 24 264 32) { State.reset with cs := some 0x17 } ∧
    operandsAgree .csum (full 0 0 32) { full 3 3 32 with buf := (full 3 3 32).buf.set 32 none } ∧
    operandsAgree .verify (full 0 0 32) { full 3 3 32 with cs := none } ∧
    (full 2 264 32).status.fault = false := by
  refine ⟨?_, ?_, ?_, ?_, ?_, ?_, ?_, ?_, rfl⟩ <;>
    simp only [operandsAgree, sameString, sameEntropy] <;> decide

theorem witness_EveryStepKeepsTheStatusInvariant :
    (doing [.write 0x1F 0x0001] (full 24 264 32)).Inv ∧ answers (step (doing [.write 0x1F 0x0001] (full 24 264 32))) ∧
    ((faulted .eRange (full 24 264 32)).setMatch true).Inv := by
  refine ⟨?_, ⟨_, rfl⟩, ?_⟩ <;> (unfold State.Inv; decide)

theorem witness_HostReadAnswersTheRegister :
    (doing [.read 0x69] State.reset).pending = .read 0x69 :: [] ∧ regAt 0x69 = none ∧ regAt 0x1E = none ∧
    State.reset.status.fault = false ∧ (faulted .eLength State.reset).status.fault = true ∧
    regAt 0x68 = some (.buf 32) ∧ regAt 0x00 = some (.idx 0) := by decide

theorem witness_HostWriteWritesOneRegister :
    (doing [.write 0x17 0x07FF] State.reset).pending = .write 0x17 0x07FF :: [] ∧ (0x17 : Addr) ≠ cmdAddr ∧
    (faulted .eLength State.reset).status.fault = true ∧ State.reset.status.fault = false ∧
    regAt 0x41 = none ∧ regAt 0x1B = some .cs ∧ regAt 0x1D = some .status ∧
    regAt 0x17 = some (.idx 23) ∧ 2 ^ (Reg.idx 23).width ≤ (0x0800 : Word16).toNat ∧
    (0x07FF : Word16).toNat < 2 ^ (Reg.idx 23).width ∧
    regAt 0x40 = some (.bitb 32) ∧ 2 ^ (Reg.bitb 32).width ≤ (0x0100 : Word16).toNat ∧
    (0x00FF : Word16).toNat < 2 ^ (Reg.bitb 32).width := by decide

theorem witness_CommandWriteRunsTheDecodedInstruction :
    (doing [.write cmdAddr 0x0001] State.reset).pending = .write cmdAddr 0x0001 :: [] ∧
    (faulted .eLength State.reset).status.fault = true ∧ State.reset.status.fault = false ∧
    decode 0xFFFF = .error .eOpcode ∧ decode 0xFFF6 = .error .eField ∧ decode 0x0001 = .ok .pack := by decide

theorem witness_PlacedWordIsRunNext : State.reset.status.fault = false ∧ decode 0x1F76 = .ok (.join 31 7) := by decide

theorem witness_AddressMapIsTheTable :
    0x41 ≤ (0x41 : Addr).toNat ∧ (0x41 : Addr).toNat ≤ 0x47 ∧ 0x41 ≤ (0x47 : Addr).toNat ∧ (0x47 : Addr).toNat ≤ 0x47 ∧
    0x69 ≤ (0x69 : Addr).toNat ∧ 0x69 ≤ (0xFF : Addr).toNat := by decide

/-- A SPLIT, and an APPEND3, done twice; a read and a write done twice; a command done twice, also one that faults. -/
theorem witness_RepeatedAccessesAndCommands :
    regAt 0x1D = some .status ∧
    (doing [.read 0x1D, .read 0x1D] State.reset).pending = .read 0x1D :: .read 0x1D :: [] ∧
    (0x17 : Addr) ≠ cmdAddr ∧
    (doing [.write 0x17 0x07FF, .write 0x17 0x07FF] State.reset).pending = .write 0x17 0x07FF :: .write 0x17 0x07FF :: [] ∧
    answers (step (doing [.write 0x17 0x07FF, .write 0x17 0x07FF] State.reset)) ∧
    addrOf .nidx ≠ 0x17 ∧ Reg.nidx ≠ .status ∧
    answers (exec .pack (full 24 0 0)) ∧ answers (exec .unpack (bare 0 12 0)) ∧
    (ready .split (full 0 264 0) ∧ answers (exec .split (full 0 264 0))) ∧
    (ready (.append3 0) (full 0 253 0) ∧ answers (exec (.append3 0) (full 0 253 0))) := by
  refine ⟨by decide, by decide, by decide, by decide, ⟨_, rfl⟩, by decide, by decide, ⟨_, rfl⟩, ⟨_, rfl⟩, ⟨?_, _, rfl⟩, ?_, _, rfl⟩ <;>
    (unfold ready; decide)

theorem witness_WordsSelectTheirTableRow :
    (⟨"JOIN", 0x0006, 0xE08F⟩ : OpcodeRow) ∈ opcodeTable ∧ (⟨"PACK", 0x0001, 0xFFFF⟩ : OpcodeRow) ∈ opcodeTable ∧
    decode 0x0075 = .ok (.append3 7) ∧ decode 0x1F76 = .ok (.join 31 7) ∧ decode 0x0009 = .ok .verify := by decide

/-- The opcodes at the ends of the reserved ranges, each field fault alone, and a JOIN with D = 24. -/
theorem witness_EveryWordIsACommandOrOneDecodeFault :
    (doing [.write cmdAddr 0xFFFA] State.reset).pending = .write cmdAddr 0xFFFA :: [] ∧ State.reset.status.fault = false ∧
    (0x0010 : Word16).toNat % 16 = 0 ∧ (0x0007 : Word16).toNat % 16 = 7 ∧ 10 ≤ (0xFFFA : Word16).toNat % 16 ∧
    ((0x2009 : Word16).toNat % 16 < 10 ∧ (0x2009 : Word16).toNat / 8192 ≠ 0) ∧
    (0x0086 : Word16).toNat / 128 % 2 ≠ 0 ∧ ((0x0019 : Word16).toNat % 16 = 9 ∧ (0x0019 : Word16).toNat / 16 % 8 ≠ 0) ∧
    ((0x0105 : Word16).toNat % 16 = 5 ∧ (0x0105 : Word16).toNat / 256 % 32 ≠ 0) ∧
    ((0x1F76 : Word16).toNat % 16 = 6 ∧ (0x1F76 : Word16).toNat / 8192 = 0 ∧ (0x1F76 : Word16).toNat / 128 % 2 = 0) ∧
    decode 0x1806 = .ok (.join 24 0) ∧ 23 < (24 : BitVec 5).toNat := by decide

theorem witness_LoadIdxLoadsItsValues :
    (loadIdx [5, 2047] = some [.write 0x00 0x0005, .write 0x01 0x07FF, .write 0x18 0x0002] ∧
      (doing [.write 0x00 0x0005, .write 0x01 0x07FF, .write 0x18 0x0002, .read 0x1D] State.reset).pending =
        [.write 0x00 0x0005, .write 0x01 0x07FF, .write 0x18 0x0002] ++ [.read 0x1D] ∧
      State.reset.status.fault = false) ∧
    (loadIdx (List.replicate 24 2047)).isSome = true ∧ loadIdx [] = some [.write 0x18 0x0000] := by decide

theorem witness_PackConcatenatesTheIndices :
    24 < (bare 25 0 0).nidx.toNat ∧
    ((withIdx (List.replicate 23 0) 24).nidx.toNat ≤ 24 ∧ ¬ (withIdx (List.replicate 23 0) 24).indicesWritten 24) ∧
    ((full 24 0 0).nidx.toNat ≤ 24 ∧ (full 24 0 0).indicesWritten 24) ∧ (bare 0 0 0).indicesWritten 0 := by decide

theorem witness_PackedFieldsAreTheIndices :
    (ready .pack (full 24 0 0) ∧ (full 24 0 0).nidx.toNat = 24) ∧
    (ready .pack (withIdx (List.replicate 23 2047) 23) ∧ (withIdx (List.replicate 23 2047) 23).nidx.toNat = 23) ∧
    ready .pack (bare 0 0 0) := by
  unfold ready; decide

theorem witness_UnpackSplitsTheString :
    (264 < (full 0 265 0).blen.toNat ∧ (full 0 12 0).blen.toNat % 11 ≠ 0) ∧
    ((bare 0 264 0).blen.toNat ≤ 264 ∧ (bare 0 264 0).blen.toNat % 11 = 0 ∧ ¬ (bare 0 264 0).storeWritten) ∧
    ((full 0 264 0).blen.toNat % 11 = 0 ∧ (full 0 264 0).storeWritten) ∧
    ((bare 0 0 0).blen.toNat % 11 = 0 ∧ (bare 0 0 0).storeWritten) := by decide

theorem witness_PackAndUnpackAreInverse :
    ready .pack (full 24 0 0) ∧ ready .pack (bare 0 0 0) ∧ ready .unpack (full 0 264 0) ∧
    ready .unpack (withBits [0xFF, 0xFF] 11) := by
  unfold ready; decide

theorem witness_TobytesPadsWithZeros :
    264 < (full 0 265 0).blen.toNat ∧
    ((bare 0 1 0).blen.toNat ≤ 264 ∧ ¬ (bare 0 1 0).storeWritten) ∧
    ((full 0 264 0).blen.toNat ≤ 264 ∧ (full 0 264 0).storeWritten) ∧ (bare 0 0 0).storeWritten := by decide

theorem witness_TobytesIsTotalOnWrittenStrings :
    (full 0 264 0).status.fault = false ∧
    (ready .tobytes (full 0 264 0) ∧ (full 0 264 0).blen.toNat = 8 * 33) ∧
    (ready .tobytes (full 0 253 0)) := by
  unfold ready; decide

theorem witness_SplitTakesTheLastByte :
    (full 0 263 0).blen.toNat ≠ 264 ∧
    ((withBits (List.replicate 32 0) 264).blen.toNat = 264 ∧ ¬ (withBits (List.replicate 32 0) 264).storeWritten) ∧
    ((full 0 264 0).blen.toNat = 264 ∧ (full 0 264 0).storeWritten) := by decide

theorem witness_PackThenSplitGivesEntropyAndClaim :
    (full 24 0 0).nidx.toNat = 24 ∧ (full 24 0 0).indicesWritten 24 := by decide

theorem witness_Append3SetsTheTailBits :
    (full 0 252 0).blen.toNat ≠ 253 ∧
    ((withBits (List.replicate 31 0) 253).blen.toNat = 253 ∧ ¬ (withBits (List.replicate 31 0) 253).storeWritten) ∧
    ((withBits (List.replicate 32 0) 253).blen.toNat = 253 ∧ (withBits (List.replicate 32 0) 253).storeWritten) := by decide

theorem witness_Append3AgreesWithTheFullPack :
    (withIdx (List.replicate 23 2047) 23).nidx.toNat = 23 ∧ (withIdx (List.replicate 23 2047) 23).indicesWritten 23 ∧
    (0x717 : Idx).extractLsb' 8 3 = 7 := by decide

theorem witness_JoinFormsTheIndex :
    23 < (24 : BitVec 5).toNat ∧ ((23 : BitVec 5).toNat ≤ 23 ∧ State.reset.cs = none) ∧
    ((23 : BitVec 5).toNat < 24 ∧ (full 0 0 0).cs = some 0x17) := by decide

theorem witness_EveryCandidateValidates :
    (withIdx (List.replicate 23 2047) 0).indicesWritten 23 ∧ (withIdx (List.replicate 23 2047) 0).status.fault = false ∧
    (doing (candidate 7 ++ (validate ++ [.read 0x1D])) (withIdx (List.replicate 23 2047) 0)).pending =
      candidate 7 ++ (validate ++ [.read 0x1D]) := by decide

theorem witness_CsumWritesTheChecksum :
    (full 0 0 31).buflen.toNat ≠ 32 ∧
    ((withBuf (List.replicate 31 0) 32 none).buflen.toNat = 32 ∧ ¬ (withBuf (List.replicate 31 0) 32 none).entropyWritten) ∧
    ((withBuf (List.replicate 32 0) 32 none).buflen.toNat = 32 ∧
      ∀ (k : Nat) (h : k < 32), (withBuf (List.replicate 32 0) 32 none).buf[k] = some (Vector.replicate 32 (0 : Byte))[k]) := by
  decide

theorem witness_CsumIsDeterministic :
    ready .csum (full 0 0 32) ∧ ready .csum (withBuf (List.replicate 32 0x80) 32 none) ∧
    ∀ (k : Nat) (h : k < 32), (full 0 0 32).buf[k] = (withBuf (List.replicate 32 0x80) 32 none).buf[k] := by
  unfold ready; decide

theorem witness_VerifyComparesWithTheClaim :
    (full 0 0 33).buflen.toNat ≠ 32 ∧ ((full 0 0 32).buflen.toNat = 32 ∧ { full 0 0 32 with claim := none }.claim = none) ∧
    ¬ (withBuf (List.replicate 31 0) 32 (some 0)).entropyWritten ∧
    ((full 0 0 32).claim = some 0x66 ∧
      ∀ (k : Nat) (h : k < 32), (full 0 0 32).buf[k] = some (Vector.replicate 32 (0x80 : Byte))[k]) ∧
    (Instr.csum ≠ .verify ∧ answers (exec .csum (full 0 0 33))) := by
  refine ⟨by decide, by decide, by decide, by decide, by decide, _, rfl⟩

theorem witness_VerifyIsDeterministic :
    ready .verify (full 0 0 32) ∧ ready .verify (withBuf (List.replicate 32 0x80) 32 (some 0x66)) ∧
    (∀ (k : Nat) (h : k < 32), (full 0 0 32).buf[k] = (withBuf (List.replicate 32 0x80) 32 (some 0x66)).buf[k]) ∧
    (full 0 0 32).claim = (withBuf (List.replicate 32 0x80) 32 (some 0x66)).claim := by
  unfold ready; decide

theorem witness_ValidateComparesClaimAndChecksum :
    (full 0 0 0).indicesWritten 24 ∧ (full 0 0 0).status.fault = false ∧
    (doing (validate ++ [.read 0x1D]) (full 0 0 0)).pending = validate ++ [.read 0x1D] := by decide

theorem witness_EightFinalIndicesValidate :
    (withIdx (List.replicate 23 0) 0).indicesWritten 23 ∧ (withIdx (List.replicate 23 0) 0).status.fault = false := by decide

theorem witness_FaultsArePrecise :
    State.reset.status.fault = false ∧ (faulted .eLength State.reset).status.fault = true ∧
    step (doing [.write 0x1F 0x0008] (full 24 264 31)) = .next (faulted .eLength (full 24 264 31)) ∧
    (faulted .eLength (full 24 264 31)).status.fault = true := ⟨rfl, rfl, rfl, rfl⟩

theorem witness_FaultedBlockIgnoresWrites :
    (faulted .eLength State.reset).status.fault = true ∧
    (doing [.write 0x1F 0x0001] (faulted .eLength State.reset)).pending = .write 0x1F 0x0001 :: [] ∧
    (doing [.read 0x41] (faulted .eLength State.reset)).pending = .read 0x41 :: [] := by decide

/-- The JOIN clause on a next state is met by an unwritten CS, with D at the end of its range. -/
theorem witness_ChecksComeInTheirOrder :
    (0xFFF7 : Word16).toNat % 16 = 7 ∧ ((0xE006 : Word16).toNat % 16 = 6 ∧ (0xE006 : Word16).toNat / 8192 ≠ 0) ∧
    23 < (24 : BitVec 5).toNat ∧ (23 : BitVec 5).toNat ≤ 23 ∧
    exec (.join 23 0) State.reset = .next (faulted .eUninit State.reset) ∧
    24 < (bare 25 0 0).nidx.toNat ∧ 264 < (bare 0 265 0).blen.toNat ∧ (bare 0 1 0).blen.toNat % 11 ≠ 0 ∧
    (bare 0 256 0).blen.toNat ≠ 264 ∧ (bare 0 256 0).blen.toNat ≠ 253 ∧ (bare 0 0 33).buflen.toNat ≠ 32 :=
  ⟨by decide, by decide, by decide, by decide, rfl, by decide, by decide, by decide, by decide, by decide, by decide⟩

theorem witness_OnlyResetUnwritesOrClearsFault :
    (doing [.reset, .read 0x1D] (faulted .eLength (full 1 1 1))).pending = .reset :: [.read 0x1D] ∧
    (doing [.read 0x1D] (faulted .eLength (full 1 1 1))).pending.head? ≠ some .reset ∧
    (faulted .eLength (full 1 1 1)).status.fault = true ∧
    answers (step (doing [.read 0x1D] (faulted .eLength (full 1 1 1)))) :=
  ⟨by decide, by decide, by decide, _, rfl⟩

theorem witness_CommandsRunExactlyWhenReady :
    (Instr.join 23 7).wellFormed = true ∧ (full 24 264 32).status.fault = false ∧ ready (.join 23 7) (full 24 264 32) ∧
    ready .pack State.reset ∧ ready .csum (full 24 264 32) ∧ ready .verify (full 24 264 32) ∧
    ready .unpack (full 24 264 32) ∧ ready .tobytes (full 24 264 32) ∧ ready .split (full 24 264 32) ∧
    ready (.append3 7) (full 24 253 32) ∧ ¬ ready (.join 23 7) State.reset ∧ ¬ ready .csum State.reset := by
  unfold ready; decide

theorem witness_CommandsOverwriteOnlyTheirRegisters :
    answers (exec .unpack (full 5 22 32)) ∧ ready .unpack (full 5 22 32) ∧ ¬ overwrites .unpack (full 5 22 32) (.idx 2) ∧
    Reg.idx 2 ≠ .status ∧ Instr.unpack ≠ .verify := by
  refine ⟨⟨_, rfl⟩, by unfold ready; decide, ?_, by decide, by decide⟩
  simp [overwrites, full]

end Sys2Proof.Tests
end

section
/-! SUPPORT. A decoded word is the encoding of its command (spec/30_encoding.md R70 to R75). -/

namespace Sys2Proof

theorem select_eq_some {op : BitVec 4} {t : BitVec 3} {d : BitVec 5} {i : Instr} (h : select op t d = some i) :
    op = i.opcode ∧ (i.usesT = true → t = i.tBits) ∧ (i.usesD = true → d = i.dBits) := by
  unfold select at h
  split at h <;> cases h
  all_goals
    next hop => exact ⟨BitVec.eq_of_toNat_eq hop, by simp [Instr.usesT, Instr.tBits],
      by simp [Instr.usesD, Instr.dBits]⟩

theorem tBits_of_not_usesT {i : Instr} (h : i.usesT = false) : i.tBits = 0 := by
  cases i with
  | append3 | join => cases h
  | _ => rfl

theorem dBits_of_not_usesD {i : Instr} (h : i.usesD = false) : i.dBits = 0 := by
  cases i with
  | join => cases h
  | _ => rfl

/-- The checks of R73 that a decoded word has passed. -/
theorem decode_eq_ok {w : Word16} {i : Instr} (h : decode w = .ok i) :
    select (opField w) (tField w) (dField w) = some i ∧ reservedHigh w = 0 ∧ reservedLow w = 0 ∧
      (i.usesT = false → tField w = 0) ∧ (i.usesD = false → dField w = 0) := by
  unfold decode at h
  split at h
  · cases h
  · next j hj =>
    split_ifs at h with hr hT hD
    cases h
    obtain ⟨hh, hl⟩ := not_or.mp hr
    exact ⟨hj, not_not.mp hh, not_not.mp hl, fun hu => by_contra fun ht => hT ⟨hu, ht⟩,
      fun hu => by_contra fun hd => hD ⟨hu, hd⟩⟩

theorem encode_of_decode {w : Word16} {i : Instr} (h : decode w = .ok i) : w = encode i := by
  obtain ⟨hs, hh, hl, hT, hD⟩ := decode_eq_ok h
  obtain ⟨ho, ht, hd⟩ := select_eq_some hs
  have htf : tField w = i.tBits := by
    cases hu : i.usesT with
    | true => exact ht hu
    | false => rw [hT hu, tBits_of_not_usesT hu]
  have hdf : dField w = i.dBits := by
    cases hu : i.usesD with
    | true => exact hd hu
    | false => rw [hD hu, dBits_of_not_usesD hu]
  apply BitVec.eq_of_toNat_eq
  rw [word_of_fields w, encode_toNat, hh, hl, ho, htf, hdf]
  simp

end Sys2Proof
end

section
/-! SUPPORT. Every command reads its operands and then makes one update, which depends on the operands alone
(spec/10_state.md R39). `plan` names the two halves; `exec_eq_plan` ties them to the model. -/

namespace Sys2Proof.Machine

/-! ## Operand reads agree on states that agree on the operands -/

theorem sameString_storeWritten {s u : State} (h : sameString s u) : s.storeWritten ↔ u.storeWritten := by
  obtain ⟨hl, hw, -⟩ := h
  rw [State.storeWritten, State.storeWritten, ← hl]
  refine forall₃_congr fun k hk hlt => ?_
  rw [hw k hk hlt]

/-- Bits at positions >= BLEN are not read (R27). -/
theorem load_congr {s u : State} (h : sameString s u) : load s = load u := by
  have hw := sameString_storeWritten h
  obtain ⟨hl, -, hb⟩ := h
  rcases load_cases s with ⟨hs, es⟩ | ⟨hs, hn, es⟩ | ⟨hs, hy, b, es, bl, bb⟩
  · rw [es, load_too_long u (by rwa [← hl])]
  · rw [es, load_unwritten u (by rwa [← hl]) (by rwa [← hw])]
  · obtain ⟨c, ec, cl, cb⟩ := load_written u (by rwa [← hl]) (hw.mp hy)
    have hbc : b = c := by
      refine List.ext_getElem (by rw [bl, cl, hl]) fun p h₁ h₂ => ?_
      have hp := hb p (by omega)
      rw [bb p h₁, cb p h₂] at hp
      exact Option.some.inj hp
    rw [es, ec, hbc]

theorem take_toList_congr {α : Type} {m : Nat} {f g : Vector α m} (n : Nat)
    (h : ∀ (k : Nat) (hk : k < m), k < n → f[k] = g[k]) : f.toList.take n = g.toList.take n := by
  refine List.ext_getElem (by simp) fun k h₁ h₂ => ?_
  simp only [List.length_take, Vector.length_toList] at h₁
  simpa using h k (by omega) (by omega)

theorem readIndices_congr {s u : State} (n : Nat) (h : ∀ (k : Nat) (hk : k < 24), k < n → s.idx[k] = u.idx[k]) :
    readIndices n s = readIndices n u := by
  rw [readIndices, take_toList_congr n h, readIndices]

theorem readEntropy_congr {s u : State} (h : sameEntropy s u) : readEntropy s = readEntropy u := by
  obtain ⟨hl, hb⟩ := h
  rw [readEntropy, hl, take_toList_congr 32 hb, readEntropy]

/-! ## The two halves of a command -/

/-- UNPACK's writes for a string b of n indices (R103). -/
def writeIndices (n : Nat) (b : BitString) (s : State) : State :=
  { s with
    idx := tabulate 24 fun i => if i < n then some (indexOf b i) else s.idx.toList.getD i none
    nidx := BitVec.ofNat 5 n }

/-- TOBYTES's writes for a string b of n bits (R105). -/
def writeBytes (n : Nat) (b : BitString) (s : State) : State :=
  { s with
    buf := tabulate 33 fun k => some (if k < ceilDiv n 8 then byteOf (b ++ zeros (8 * ceilDiv n 8 - n)) k else 0)
    buflen := BitVec.ofNat 6 (ceilDiv n 8) }

/-- VERIFY's writes for the computed checksum and the claimed one (R143). -/
def writeVerdict (c claim : Byte) (s : State) : State := State.setMatch (matchFlag c claim) { s with cs := some c }

/-- What command `i` makes of its operands in `s`: a fault, or the update of the registers it writes. -/
def plan (i : Instr) (s : State) : Except FaultCode (State → State) :=
  match i with
  | .pack =>
    if 24 < s.nidx.toNat then .error .eLength
    else (readIndices s.nidx.toNat s).map fun xs => store (packIndices xs)
  | .unpack =>
    if 264 < s.blen.toNat ∨ s.blen.toNat % 11 ≠ 0 then .error .eLength
    else (load s).map (writeIndices (s.blen.toNat / 11))
  | .tobytes =>
    if 264 < s.blen.toNat then .error .eLength else (load s).map (writeBytes s.blen.toNat)
  | .split => if s.blen.toNat ≠ 264 then .error .eLength else (load s).map splitInto
  | .append3 t => if s.blen.toNat ≠ 253 then .error .eLength else (load s).map fun b => store (b ++ tailString t)
  | .join d t =>
    match destReg d, s.cs with
    | none, _ => .error .eRange
    | some _, none => .error .eUninit
    | some k, some c => .ok fun u => { u with idx := u.idx.set k (some (BitVec.ofNat 11 (joinIndex t c))) }
  | .csum => (readEntropy s).map fun bs u => { u with cs := some (checksum bs) }
  | .verify =>
    (readEntropy s).bind fun bs =>
      match s.claim with
      | none => .error .eUninit
      | some claim => .ok (writeVerdict (checksum bs) claim)

theorem exec_eq_plan (i : Instr) (s : State) : exec i s = finish s ((plan i s).map (· s)) := by
  cases i with
  | pack =>
    simp only [exec, execPack, plan]
    split
    · rfl
    · cases readIndices s.nidx.toNat s <;> rfl
  | unpack | tobytes | split | append3 =>
    simp only [exec, execUnpack, execTobytes, execSplit, execAppend3, plan]
    split
    · rfl
    · cases load s <;> rfl
  | join d t =>
    simp only [exec, execJoin, plan]
    cases destReg d with
    | none => rfl
    | some k =>
      cases hc : s.cs with
      | none => rfl
      | some c => simp only [if_neg (Nat.not_lt.mpr (joinIndex_le t c)), ← hc]; rfl
  | csum =>
    simp only [exec, execCsum, plan]
    cases readEntropy s <;> rfl
  | verify =>
    simp only [exec, execVerify, plan]
    cases readEntropy s with
    | error c => rfl
    | ok bs =>
      cases hc : s.claim with
      | none => rfl
      | some claim => simp only [Except.bind, ← hc]; rfl

/-- R39: the fault or the update depends on the operands and on nothing else. -/
theorem plan_congr {i : Instr} {s u : State} (h : operandsAgree i s u) : plan i s = plan i u := by
  cases i with
  | pack => obtain ⟨hn, hx⟩ := h; simp only [plan, ← hn, readIndices_congr _ hx]
  | unpack | tobytes | split | append3 => simp only [plan, h.1, load_congr h]
  | join => have hc : s.cs = u.cs := h; simp only [plan, hc]
  | csum => simp only [plan, readEntropy_congr h]
  | verify => obtain ⟨he, hc⟩ := h; simp only [plan, readEntropy_congr he, hc]

/-- What the update of command `i` does in every state. -/
structure IsUpdate (i : Instr) (f : State → State) : Prop where
  fault : ∀ s, (f s).status.fault = s.status.fault
  matched : i ≠ .verify → ∀ s, (f s).status.matched = s.status.matched
  setMatch : ∀ s m, (f (s.setMatch m)).setMatch false = (f s).setMatch false
  results : ∀ s u, resultsAgree i (f s) (f u)

theorem isUpdate_writeIndices (n : Nat) (b : BitString) : IsUpdate .unpack (writeIndices n b) where
  fault _ := rfl
  matched _ _ := rfl
  setMatch _ _ := rfl
  results s u := by
    refine ⟨rfl, fun k hk hlt => ?_⟩
    have hkn : k < n := Nat.lt_of_lt_of_le hlt (by simpa [writeIndices] using Nat.mod_le n 32)
    simp [writeIndices, hkn]

/-- The updates that a checked read can give. -/
theorem update_of_checkedRead {α : Type} {p : Prop} [Decidable p] {c : FaultCode} {x : Except FaultCode α}
    {g : α → State → State} {f : State → State} (h : (if p then .error c else x.map g) = Except.ok f) :
    ∃ a, f = g a := by
  split at h
  · cases h
  · cases x with
    | error e => cases h
    | ok a => exact ⟨a, (Except.ok.inj h).symm⟩

/-- A command that completes makes its own update. -/
theorem isUpdate_of_plan {i : Instr} {s : State} {f : State → State} (h : plan i s = .ok f) : IsUpdate i f := by
  cases i with
  | pack =>
    obtain ⟨xs, rfl⟩ := update_of_checkedRead h
    exact ⟨fun _ => rfl, fun _ _ => rfl, fun _ _ => rfl, fun _ _ => ⟨rfl, rfl⟩⟩
  | unpack =>
    obtain ⟨b, rfl⟩ := update_of_checkedRead h
    exact isUpdate_writeIndices _ b
  | tobytes =>
    obtain ⟨b, rfl⟩ := update_of_checkedRead h
    exact ⟨fun _ => rfl, fun _ _ => rfl, fun _ _ => rfl, fun _ _ => ⟨rfl, rfl⟩⟩
  | split =>
    obtain ⟨b, rfl⟩ := update_of_checkedRead h
    exact ⟨fun _ => rfl, fun _ _ => rfl, fun _ _ => rfl, fun _ _ => ⟨rfl, rfl, rfl⟩⟩
  | append3 t =>
    obtain ⟨b, rfl⟩ := update_of_checkedRead h
    exact ⟨fun _ => rfl, fun _ _ => rfl, fun _ _ => rfl, fun _ _ => ⟨rfl, rfl⟩⟩
  | join d t =>
    simp only [plan] at h
    split at h
    · cases h
    · cases h
    · next k c hd hc =>
      cases h
      refine ⟨fun _ => rfl, fun _ _ => rfl, fun _ _ => rfl, fun _ _ hlt => ?_⟩
      have hk : k = ⟨d.toNat, hlt⟩ := by simpa [destReg, hlt] using hd.symm
      simp [hk]
  | csum =>
    simp only [plan] at h
    cases hr : readEntropy s with
    | error c => rw [hr] at h; cases h
    | ok bs =>
      rw [hr] at h
      cases h
      exact ⟨fun _ => rfl, fun _ _ => rfl, fun _ _ => rfl, fun _ _ => rfl⟩
  | verify =>
    simp only [plan] at h
    cases hr : readEntropy s with
    | error c => rw [hr] at h; cases h
    | ok bs =>
      cases hc : s.claim with
      | none => rw [hr, hc] at h; cases h
      | some claim =>
        rw [hr, hc] at h
        cases h
        exact ⟨fun _ => rfl, fun hv => absurd rfl hv, fun _ _ => rfl, fun _ _ => ⟨rfl, rfl⟩⟩

/-- Two runs of a command on the same operands end in the same fault, or make the same update. -/
theorem exec_same_operands {i : Instr} {s u : State} (h : operandsAgree i s u) :
    (∃ c, exec i s = .next (raise c s) ∧ exec i u = .next (raise c u)) ∨
    ∃ f, IsUpdate i f ∧ exec i s = .next (f s) ∧ exec i u = .next (f u) := by
  rw [exec_eq_plan i s, exec_eq_plan i u, ← plan_congr h]
  cases hp : plan i s with
  | error c => exact .inl ⟨c, rfl, rfl⟩
  | ok f => exact .inr ⟨f, isUpdate_of_plan hp, rfl, rfl⟩

/-- No command reads MATCH (R35). -/
theorem operandsAgree_setMatch (i : Instr) (s : State) (m : Bool) : operandsAgree i s (s.setMatch m) := by
  cases i with
  | pack => exact ⟨rfl, fun _ _ _ => rfl⟩
  | unpack | tobytes | split | append3 => exact ⟨rfl, fun _ _ _ => rfl, fun _ _ => rfl⟩
  | join => rfl
  | csum => exact ⟨rfl, fun _ _ _ => rfl⟩
  | verify => exact ⟨⟨rfl, fun _ _ _ => rfl⟩, rfl⟩

theorem raise_setMatch (c : FaultCode) (s : State) (m : Bool) : raise c (s.setMatch m) = (raise c s).setMatch m := by
  cases hf : s.status.fault with
  | true => rw [raise_of_fault s c hf, raise_of_fault (s.setMatch m) c hf]
  | false => rw [raise_of_no_fault s c hf, raise_of_no_fault (s.setMatch m) c hf]; rfl

theorem exec_setMatch (i : Instr) (s : State) (m : Bool) : ∃ t u, exec i s = .next t ∧
    exec i (s.setMatch m) = .next u ∧ u.setMatch false = t.setMatch false := by
  rcases exec_same_operands (operandsAgree_setMatch i s m) with ⟨c, hs, hu⟩ | ⟨f, hf, hs, hu⟩
  · exact ⟨_, _, hs, hu, by rw [raise_setMatch]; rfl⟩
  · exact ⟨_, _, hs, hu, hf.setMatch s m⟩

end Sys2Proof.Machine
end

section
/-! SUPPORT. What a step does to STATUS (spec/10_state.md R34 to R36, spec/60_exceptions.md R163, R167). -/

namespace Sys2Proof.Machine

/-- The fault entry: STATUS `b` is STATUS `a` with a first fault recorded (R163). -/
def FaultEntry (a b : Status) : Prop :=
  a.fault = false ∧ ∃ c, c ≠ FaultCode.none ∧ b = { a with fault := true, fcode := c }

theorem status_ext {a b : Status} (hm : a.matched = b.matched) (hf : a.fault = b.fault) (hc : a.fcode = b.fcode) :
    a = b := by
  cases a; cases b; cases hm; cases hf; cases hc; rfl

theorem raise_status {c : FaultCode} (hc : c ≠ .none) (s : State) :
    (raise c s).status = s.status ∨ FaultEntry s.status (raise c s).status := by
  cases hf : s.status.fault with
  | true => rw [raise_of_fault s c hf]; exact .inl rfl
  | false => rw [raise_of_no_fault s c hf]; exact .inr ⟨hf, c, hc, rfl⟩

theorem hostRead_status (a : Addr) (s : State) :
    (hostRead a s).status = s.status ∨ FaultEntry s.status (hostRead a s).status := by
  cases hr : regAt a with
  | none => simpa [hostRead, hr] using raise_status (by decide : FaultCode.eHostAddr ≠ .none) s
  | some r => simp [hostRead, hr]

/-- Only VERIFY writes MATCH (R143). -/
theorem exec_matched {i : Instr} {s t : State} (hi : i ≠ .verify) (h : exec i s = .next t) :
    t.status.matched = s.status.matched := by
  rw [exec_eq_plan] at h
  cases hp : plan i s with
  | error c => rw [hp] at h; cases h; exact raise_matched s c
  | ok f => rw [hp] at h; cases h; exact (isUpdate_of_plan hp).matched hi s

/-- A command keeps STATUS, takes the fault entry, or is a VERIFY that completes and so may change MATCH. -/
theorem exec_status {i : Instr} {s t : State} (h : exec i s = .next t) :
    (t.status = s.status ∨ FaultEntry s.status t.status) ∨
    (i = .verify ∧ t.status.fault = s.status.fault ∧ t.status.fcode = s.status.fcode) := by
  rcases exec_outcome i s with ⟨c, hc, hr⟩ | ⟨-, u, hu, hfault, hfcode, -, -⟩
  · cases hr.symm.trans h
    exact .inl (raise_status hc s)
  · cases hu.symm.trans h
    by_cases hi : i = .verify
    · exact .inr ⟨hi, hfault, hfcode⟩
    · exact .inl (.inl (status_ext (exec_matched hi h) hfault hfcode))

/-- A step is a reset, keeps STATUS, takes the fault entry, or is a completed VERIFY. -/
theorem step_status {s t : State} (h : step s = .next t) :
    (∃ rest, s.pending = .reset :: rest) ∨ t.status = s.status ∨ FaultEntry s.status t.status ∨
    (∃ rest, s.pending = .write cmdAddr (encode .verify) :: rest ∧ s.status.fault = false ∧
      t.status.fault = s.status.fault ∧ t.status.fcode = s.status.fcode) := by
  cases hp : s.pending with
  | nil =>
    cases (step_idle s hp).symm.trans h
    exact .inr (.inl rfl)
  | cons e rest =>
    rw [step_of_pending s e rest hp] at h
    rcases hostEvent_cases e { s with pending := rest } with
      ⟨a, rfl, hn⟩ | ⟨rfl, -⟩ | ⟨a, v, rfl, ⟨-, hn⟩ | ⟨hf, ⟨c, hc, hn⟩ | ⟨-, r, -, -, -, hn⟩ | ⟨rfl, i, hd, hn⟩⟩⟩
    · cases hn.symm.trans h
      exact .inr ((hostRead_status a _).imp_right .inl)
    · exact .inl ⟨rest, rfl⟩
    · cases hn.symm.trans h
      exact .inr (.inl rfl)
    · cases hn.symm.trans h
      exact .inr ((raise_status hc _).imp_right .inl)
    · cases hn.symm.trans h
      exact .inr (.inl (writeReg_status r v _).1)
    · rcases exec_status (hn.symm.trans h) with hs | ⟨rfl, hfault, hfcode⟩
      · exact .inr (hs.imp_right .inl)
      · rw [encode_of_decode hd]
        exact .inr (.inr (.inr ⟨rest, rfl, hf, hfault, hfcode⟩))

theorem getLsbD_zero_word (st : Status) : st.word.getLsbD 0 = st.matched := by
  rw [Status.word, BitVec.getLsbD_append]
  simp

/-- Settles O4: by what a step does to STATUS, and since no command's operands hold MATCH. -/
theorem matchWrittenOnlyByVerify : Obligations.MatchWrittenOnlyByVerify := by
  refine ⟨fun s t h hm => ?_, exec_setMatch, fun s => ⟨_, rfl, getLsbD_zero_word _⟩⟩
  rcases step_status h with hr | hs | ⟨-, c, -, hs⟩ | ⟨rest, hp, hf, hfault, -⟩
  · exact .inl hr
  · exact absurd (by rw [hs]) hm
  · exact absurd (by rw [hs]) hm
  · exact .inr ⟨rest, hp, hf, hfault.trans hf⟩

/-- Settles O5: by what a step does to STATUS. -/
theorem faultWrittenOnlyByFaultEntry : Obligations.FaultWrittenOnlyByFaultEntry := by
  intro s t h hr
  rcases step_status h with ⟨rest, hp⟩ | hs | he | ⟨-, -, -, hfault, hfcode⟩
  · simp [hp] at hr
  · exact .inl (by simp [hs])
  · exact .inr he
  · exact .inl ⟨hfault, hfcode⟩

/-- Settles O7: equal operands give the same fault, or the same update of the registers written. -/
theorem commandsDependOnOperandsOnly : Obligations.CommandsDependOnOperandsOnly := by
  intro i s u hs hu h
  rcases exec_same_operands h with ⟨c, es, eu⟩ | ⟨f, hf, es, eu⟩
  · exact ⟨_, _, es, eu, by simp, by simp [hs, hu], by simp⟩
  · have hfs : (f s).status.fault = false := (hf.fault s).trans hs
    have hfu : (f u).status.fault = false := (hf.fault u).trans hu
    exact ⟨_, _, es, eu, by rw [hfs, hfu], by simp [hfs], fun _ => hf.results s u⟩

/-- Settles O2: `State.reset` is written from the table of R38. -/
theorem resetLeavesTheResetValues : Obligations.ResetLeavesTheResetValues :=
  ⟨fun _ h => Vector.getElem_replicate h, rfl, fun _ h => Vector.getElem_replicate h, rfl,
    fun _ h => Vector.getElem_replicate h, rfl, rfl, rfl, rfl, rfl⟩

end Sys2Proof.Machine
end

section
/-! SUPPORT. What one host transaction does, said once: each access of the bus by its own rule (spec/20_memory.md R52 to
R54), and the registers it leaves as they were. -/

namespace Sys2Proof.Machine

/-! ## The registers -/

/-- An address names a register only if it is that register's address (R55). -/
theorem eq_addrOf_of_regAt {a : Addr} {r : Reg} (h : regAt a = some r) : a = addrOf r := by
  unfold regAt at h
  split_ifs at h <;> cases h
  all_goals simp [addrOf, cmdAddr, *]

/-- The registers that refuse a host write (R53). -/
theorem hostReadOnly_iff (r : Reg) : r.hostReadOnly = true ↔ r = .cs ∨ r = .status := by
  cases r <;> simp [Reg.hostReadOnly]

/-- A value has no bit above a width exactly when it is below that power of two (R53). -/
theorem ushiftRight_eq_zero_iff (v : Word16) (w : Nat) : v >>> w = 0 ↔ v.toNat < 2 ^ w := by
  rw [← BitVec.toNat_inj, BitVec.toNat_ushiftRight, Nat.shiftRight_eq_div_pow]
  simp

/-- The host's own two lists are in no register (log entries 3 and 4). -/
@[simp] theorem readReg_withHost (r : Reg) (s : State) (p : List HostEvent) (rs : List (Option Word16)) :
    readReg r { s with pending := p, reads := rs } = readReg r s := rfl

/-- A fault shows in STATUS alone (R163). -/
theorem readReg_raise {r : Reg} (hr : r ≠ .status) (c : FaultCode) (s : State) :
    readReg r (raise c s) = readReg r s := by
  cases r with
  | status => exact absurd rfl hr
  | _ => simp [readReg]

theorem writeReg_withPending (r : Reg) (v : Word16) (s : State) (p : List HostEvent) :
    writeReg r v { s with pending := p } = { writeReg r v s with pending := p } := by
  cases r <;> rfl

/-- Writing a register again with the same value changes nothing (R60). -/
theorem writeReg_writeReg_same (r : Reg) (v : Word16) (s : State) :
    writeReg r v (writeReg r v s) = writeReg r v s := by
  cases r <;> simp [writeReg]

/-! ## Reads -/

theorem hostRead_reserved {a : Addr} (ha : regAt a = none) (s : State) :
    hostRead a s = { raise .eHostAddr s with reads := none :: s.reads } := by
  simp [hostRead, readResult, ha]

theorem hostRead_register {a : Addr} {r : Reg} (ha : regAt a = some r) (s : State) :
    hostRead a s = { s with reads := readReg r s :: s.reads } := by
  simp [hostRead, readResult, ha]

theorem step_read {s : State} {a : Addr} {rest : List HostEvent} (h : s.pending = .read a :: rest) :
    step s = .next (hostRead a { s with pending := rest }) :=
  step_of_pending s _ rest h

/-! ## Register writes, in the order of checks of R166 -/

section
variable {a : Addr} {v : Word16} {s : State} {r : Reg}

theorem hostWriteReg_faulted (hf : s.status.fault = true) : hostWriteReg a v s = s := by
  simp [hostWriteReg, hf]

theorem hostWriteReg_reserved (ha : regAt a = none) : hostWriteReg a v s = raise .eHostAddr s := by
  cases hf : s.status.fault with
  | true => rw [hostWriteReg_faulted hf, raise_of_fault s _ hf]
  | false => simp [hostWriteReg, hf, ha]

theorem hostWriteReg_readOnly (ha : regAt a = some r) (ho : r.hostReadOnly = true) :
    hostWriteReg a v s = raise .eHostAddr s := by
  cases hf : s.status.fault with
  | true => rw [hostWriteReg_faulted hf, raise_of_fault s _ hf]
  | false => simp [hostWriteReg, hf, ha, ho]

theorem hostWriteReg_tooWide (ha : regAt a = some r) (ho : r.hostReadOnly = false) (hv : 2 ^ r.width ≤ v.toNat) :
    hostWriteReg a v s = raise .eHostVal s := by
  have hne : v >>> r.width ≠ 0 := by rw [Ne, ushiftRight_eq_zero_iff]; omega
  cases hf : s.status.fault with
  | true => rw [hostWriteReg_faulted hf, raise_of_fault s _ hf]
  | false => simp only [hostWriteReg, hf, ha, ho, if_pos hne, Bool.false_eq_true, if_false]

theorem hostWriteReg_valid (hf : s.status.fault = false) (ha : regAt a = some r) (ho : r.hostReadOnly = false)
    (hv : v.toNat < 2 ^ r.width) : hostWriteReg a v s = writeReg r v s := by
  have h0 : ¬ v >>> r.width ≠ 0 := not_not.mpr ((ushiftRight_eq_zero_iff v r.width).mpr hv)
  simp only [hostWriteReg, hf, ha, ho, if_neg h0, Bool.false_eq_true, if_false]

/-- A write to an address other than CMD is dropped, faults, or writes one register that takes the value. -/
theorem hostWriteReg_cases (a : Addr) (v : Word16) (s : State) :
    (s.status.fault = true ∧ hostWriteReg a v s = s) ∨
    (s.status.fault = false ∧ ∃ c, hostWriteReg a v s = raise c s) ∨
    (s.status.fault = false ∧ ∃ r, regAt a = some r ∧ r.hostReadOnly = false ∧ v.toNat < 2 ^ r.width ∧
      hostWriteReg a v s = writeReg r v s) := by
  cases hf : s.status.fault with
  | true => exact .inl ⟨rfl, hostWriteReg_faulted hf⟩
  | false =>
    refine .inr ?_
    cases ha : regAt a with
    | none => exact .inl ⟨rfl, _, hostWriteReg_reserved ha⟩
    | some r =>
      cases ho : r.hostReadOnly with
      | true => exact .inl ⟨rfl, _, hostWriteReg_readOnly ha ho⟩
      | false =>
        by_cases hv : v.toNat < 2 ^ r.width
        · exact .inr ⟨rfl, r, rfl, ho, hv, hostWriteReg_valid hf ha ho hv⟩
        · exact .inl ⟨rfl, _, hostWriteReg_tooWide ha ho (Nat.le_of_not_lt hv)⟩

theorem hostWriteReg_pending (a : Addr) (v : Word16) (s : State) : (hostWriteReg a v s).pending = s.pending := by
  rcases hostWriteReg_cases a v s with ⟨-, e⟩ | ⟨-, c, e⟩ | ⟨-, r, -, -, -, e⟩
  · rw [e]
  · rw [e, raise_pending]
  · rw [e, (writeReg_status r v s).2.1]

/-- The same write again, whatever the host has left to do, changes nothing (R60). -/
theorem hostWriteReg_hostWriteReg_same (a : Addr) (v : Word16) (s : State) (p : List HostEvent) :
    hostWriteReg a v { hostWriteReg a v s with pending := p } = { hostWriteReg a v s with pending := p } := by
  rcases hostWriteReg_cases a v s with ⟨hf, e⟩ | ⟨-, c, e⟩ | ⟨hf, r, hr, ho, hv, e⟩
  · rw [e]
    exact hostWriteReg_faulted hf
  · rw [e]
    exact hostWriteReg_faulted (raise_fault s c)
  · have hf' : (writeReg r v { s with pending := p }).status.fault = false := by rw [(writeReg_status r v _).1, hf]
    rw [e, ← writeReg_withPending, hostWriteReg_valid hf' hr ho hv, writeReg_writeReg_same]

end

theorem step_writeReg {s : State} {a : Addr} {v : Word16} {rest : List HostEvent} (ha : a ≠ cmdAddr)
    (h : s.pending = .write a v :: rest) : step s = .next (hostWriteReg a v { s with pending := rest }) := by
  rw [step_of_pending s _ rest h, hostEvent, if_neg ha]

/-- What a valid host write leaves in the registers (R53). -/
theorem readReg_writeReg_of_regAt {a : Addr} {r : Reg} {v : Word16} (s : State) (ha : a ≠ cmdAddr)
    (hr : regAt a = some r) (ho : r.hostReadOnly = false) (hv : v.toNat < 2 ^ r.width) :
    readReg r (writeReg r v s) = some v ∧ ∀ q, q ≠ r → readReg q (writeReg r v s) = readReg q s := by
  obtain ⟨hcs, hst⟩ := not_or.mp (mt (hostReadOnly_iff r).mpr (by simp [ho]))
  have hcmd : r ≠ .cmd := by
    rintro rfl
    exact ha (eq_addrOf_of_regAt hr)
  exact readReg_writeReg r v s hcs hst hcmd hv

/-! ## Command writes -/

section
variable {v : Word16} {s : State}

theorem hostWriteCmd_faulted (hf : s.status.fault = true) : hostWriteCmd v s = .next s := by
  simp [hostWriteCmd, hf]

theorem hostWriteCmd_error {e : DecodeError} (hf : s.status.fault = false) (hd : decode v = .error e) :
    hostWriteCmd v s = .next (raise (decodeFault e) s) := by
  simp [hostWriteCmd, hf, hd]

theorem hostWriteCmd_ok {i : Instr} (hf : s.status.fault = false) (hd : decode v = .ok i) :
    hostWriteCmd v s = exec i s := by
  simp [hostWriteCmd, hf, hd]

end

theorem step_writeCmd {s : State} {v : Word16} {rest : List HostEvent} (h : s.pending = .write cmdAddr v :: rest) :
    step s = hostWriteCmd v { s with pending := rest } := by
  rw [step_of_pending s _ rest h, hostEvent, if_pos rfl]

end Sys2Proof.Machine
end

section
/-! SUPPORT. A repeated command (spec/20_memory.md R60): one that leaves its operands in place makes the same update
again, while SPLIT and APPEND3 change BLEN, which they read. -/

namespace Sys2Proof.Machine

/-- A fault leaves the operands of every command in place. -/
theorem operandsAgree_raise (i : Instr) (c : FaultCode) (s : State) : operandsAgree i s (raise c s) := by
  cases i with
  | unpack | tobytes | split | append3 => simp [operandsAgree, sameString]
  | _ => simp [operandsAgree, sameEntropy]

/-- The updates that an unchecked read can give. -/
theorem update_of_read {α : Type} {x : Except FaultCode α} {g : α → State → State} {f : State → State}
    (h : x.map g = .ok f) : ∃ a, f = g a := by
  cases x with
  | error e => cases h
  | ok a => exact ⟨a, (Except.ok.inj h).symm⟩

/-- The updates that VERIFY can make. -/
theorem update_of_verify {s : State} {f : State → State} (h : plan .verify s = .ok f) :
    ∃ c claim, f = writeVerdict c claim := by
  simp only [plan, Except.bind] at h
  split at h
  · cases h
  · split at h <;> cases h
    exact ⟨_, _, rfl⟩

theorem writeIndices_writeIndices_same (n : Nat) (b : BitString) (s : State) :
    writeIndices n b (writeIndices n b s) = writeIndices n b s := by
  have hidx : ∀ (k : Nat) (hk : k < 24),
      (writeIndices n b (writeIndices n b s)).idx[k] = (writeIndices n b s).idx[k] := by
    intro k hk
    by_cases hkn : k < n <;> simp [writeIndices, hkn, hk]
  exact congrArg (fun x => { writeIndices n b s with idx := x }) (Vector.ext hidx)

/-- A completed command but SPLIT and APPEND3 leaves its operands in place, and its update made again changes nothing. -/
theorem update_again_of_plan {i : Instr} {s : State} {f : State → State} (hs : i ≠ .split)
    (ha : ∀ x, i ≠ .append3 x) (h : plan i s = .ok f) : operandsAgree i s (f s) ∧ f (f s) = f s := by
  cases i with
  | split => exact absurd rfl hs
  | append3 x => exact absurd rfl (ha x)
  | pack =>
    obtain ⟨xs, rfl⟩ := update_of_checkedRead h
    exact ⟨⟨rfl, fun _ _ _ => rfl⟩, rfl⟩
  | unpack =>
    obtain ⟨b, rfl⟩ := update_of_checkedRead h
    exact ⟨⟨rfl, fun _ _ _ => rfl, fun _ _ => rfl⟩, writeIndices_writeIndices_same _ b s⟩
  | tobytes =>
    obtain ⟨b, rfl⟩ := update_of_checkedRead h
    exact ⟨⟨rfl, fun _ _ _ => rfl, fun _ _ => rfl⟩, rfl⟩
  | join d x =>
    simp only [plan] at h
    split at h <;> cases h
    exact ⟨rfl, by simp⟩
  | csum =>
    obtain ⟨bs, rfl⟩ := update_of_read h
    exact ⟨⟨rfl, fun _ _ _ => rfl⟩, rfl⟩
  | verify =>
    obtain ⟨c, claim, rfl⟩ := update_of_verify h
    exact ⟨⟨⟨rfl, fun _ _ _ => rfl⟩, rfl⟩, rfl⟩

/-- Every command but SPLIT and APPEND3 is idempotent on every outcome: a fault is raised again, and dropped. -/
theorem exec_again {i : Instr} {s t : State} (hs : i ≠ .split) (ha : ∀ x, i ≠ .append3 x) (h : exec i s = .next t) :
    exec i t = .next t := by
  rw [exec_eq_plan] at h
  cases hp : plan i s with
  | error c =>
    rw [hp] at h
    cases h
    rw [exec_eq_plan, ← plan_congr (operandsAgree_raise i c s), hp]
    exact congrArg _ (raise_of_fault _ c (raise_fault s c))
  | ok f =>
    rw [hp] at h
    cases h
    obtain ⟨ho, hf⟩ := update_again_of_plan hs ha hp
    rw [exec_eq_plan, ← plan_congr ho, hp]
    exact congrArg _ hf

theorem length_of_load {s : State} {b : BitString} (h : load s = .ok b) : b.length = s.blen.toNat := by
  rcases load_cases s with ⟨-, e⟩ | ⟨-, -, e⟩ | ⟨-, -, c, e, hl, -⟩
  · cases e.symm.trans h
  · cases e.symm.trans h
  · cases e.symm.trans h
    exact hl

/-- SPLIT leaves 256 bits (R107). -/
theorem blen_of_split {s t : State} (hr : ready .split s) (h : exec .split s = .next t) : t.blen = 256 := by
  obtain ⟨hl, hw⟩ := hr
  rcases exec_split_cases s with ⟨hn, -⟩ | ⟨-, hn, -⟩ | ⟨-, b, hb, e⟩
  · exact absurd hl hn
  · exact absurd hw hn
  · have hlen := length_of_load hb
    cases e.symm.trans h
    rw [splitInto, store_blen, length_substr b 0 255 (by omega) (by omega)]
    rfl

/-- APPEND3 leaves 256 bits (R109). -/
theorem blen_of_append3 {x : BitVec 3} {s t : State} (hr : ready (.append3 x) s)
    (h : exec (.append3 x) s = .next t) : t.blen = 256 := by
  obtain ⟨hl, hw⟩ := hr
  rcases exec_append3_cases x s with ⟨hn, -⟩ | ⟨-, hn, -⟩ | ⟨-, b, hb, e⟩
  · exact absurd hl hn
  · exact absurd hw hn
  · have hlen := length_of_load hb
    cases e.symm.trans h
    rw [store_blen, List.length_append, hlen, hl, tailString, length_bin]
    rfl

theorem exec_split_eLength {s : State} (h : s.blen.toNat ≠ 264) : exec .split s = .next (raise .eLength s) := by
  rcases exec_split_cases s with ⟨-, e⟩ | ⟨hl, -, -⟩ | ⟨⟨hl, -⟩, -⟩
  · exact e
  · exact absurd hl h
  · exact absurd hl h

theorem exec_append3_eLength {x : BitVec 3} {s : State} (h : s.blen.toNat ≠ 253) :
    exec (.append3 x) s = .next (raise .eLength s) := by
  rcases exec_append3_cases x s with ⟨-, e⟩ | ⟨hl, -, -⟩ | ⟨⟨hl, -⟩, -⟩
  · exact e
  · exact absurd hl h
  · exact absurd hl h

end Sys2Proof.Machine
end

section
/-! SUPPORT. The statements about the host interface (spec/20_memory.md R52 to R54, R60). -/

namespace Sys2Proof.Machine

/-- Settles O11: by the rules of a register write. -/
theorem hostWriteWritesOneRegister : Obligations.HostWriteWritesOneRegister := by
  intro s a v rest hp ha
  rw [step_writeReg ha hp]
  have hro : ∀ r : Reg, r ≠ .cs → r ≠ .status → r.hostReadOnly = false := fun r h₁ h₂ =>
    Bool.eq_false_iff.mpr fun ho => ((hostReadOnly_iff r).mp ho).elim h₁ h₂
  refine ⟨fun hf => by simp [hostWriteReg_faulted, hf], fun hf => ⟨?_, ?_, ?_⟩⟩
  · rintro (hr | hr | hr)
    · rw [hostWriteReg_reserved hr]
    · rw [hostWriteReg_readOnly hr rfl]
    · rw [hostWriteReg_readOnly hr rfl]
  · intro r hr hcs hst hv
    rw [hostWriteReg_tooWide hr (hro r hcs hst) hv]
  · intro r hr hcs hst hv
    obtain ⟨hread, hframe⟩ := readReg_writeReg_of_regAt { s with pending := rest } ha hr (hro r hcs hst) hv
    exact ⟨_, congrArg _ (hostWriteReg_valid hf hr (hro r hcs hst) hv), hread, hframe, writeReg_status r v _⟩

/-- A second read of a register answers the same (R60). -/
theorem step_read_read {s : State} {a : Addr} {r : Reg} {rest : List HostEvent} (ha : regAt a = some r)
    (hp : s.pending = .read a :: .read a :: rest) :
    ∃ t, step s = .next t ∧
      step t = .next { s with pending := rest, reads := readReg r s :: readReg r s :: s.reads } := by
  refine ⟨_, step_read hp, ?_⟩
  rw [hostRead_register ha, step_read rfl, hostRead_register ha]
  simp

/-- A second register write of the same value changes no register (R60). -/
theorem step_write_write {s t : State} {a : Addr} {v : Word16} {rest : List HostEvent} (ha : a ≠ cmdAddr)
    (hp : s.pending = .write a v :: .write a v :: rest) (h : step s = .next t) :
    step t = .next { t with pending := rest } := by
  cases (step_writeReg ha hp).symm.trans h
  rw [step_writeReg ha (hostWriteReg_pending a v _), hostWriteReg_hostWriteReg_same]

/-- A register write leaves every other register but STATUS, and STATUS but for a fault (R60). -/
theorem step_write_frame {s t : State} {a : Addr} {v : Word16} {rest : List HostEvent} (ha : a ≠ cmdAddr)
    (hp : s.pending = .write a v :: rest) (h : step s = .next t) :
    (∀ q, addrOf q ≠ a → q ≠ .status → readReg q t = readReg q s) ∧
    (t.status = s.status ∨ (s.status.fault = false ∧ t.status.fault = true)) := by
  cases (step_writeReg ha hp).symm.trans h
  rcases hostWriteReg_cases a v { s with pending := rest } with ⟨-, e⟩ | ⟨hf, c, e⟩ | ⟨-, r, hr, ho, hv, e⟩
  · rw [e]
    exact ⟨fun _ _ _ => rfl, .inl rfl⟩
  · rw [e]
    exact ⟨fun _ _ hq => readReg_raise hq c _, .inr ⟨hf, raise_fault _ _⟩⟩
  · rw [e]
    refine ⟨fun q hq _ => ?_, .inl (writeReg_status r v _).1⟩
    have hqr : q ≠ r := by
      rintro rfl
      exact hq (eq_addrOf_of_regAt hr).symm
    exact (readReg_writeReg_of_regAt { s with pending := rest } ha hr ho hv).2 q hqr

/-- Settles O16: by the rules of the host's accesses, and since the six commands leave their operands in place. -/
theorem repeatedAccessesAndCommands : Obligations.RepeatedAccessesAndCommands := by
  refine ⟨fun s a r rest => step_read_read, fun s t a v rest => step_write_write,
    fun s t a v rest => step_write_frame, fun i s t hi h => ?_, fun s t hr h => ?_, fun x y s t hr h => ?_⟩
  · refine exec_again ?_ ?_ h
    · rintro rfl
      simp at hi
    · rintro x rfl
      simp at hi
  · exact exec_split_eLength (by rw [blen_of_split hr h]; decide)
  · exact exec_append3_eLength (by rw [blen_of_append3 hr h]; decide)

/-- Settles O10: by the rules of a read. -/
theorem hostReadAnswersTheRegister : Obligations.HostReadAnswersTheRegister := by
  refine ⟨fun s a rest hp => ?_, fun s => ⟨fun _ => rfl, rfl, rfl, rfl, rfl, rfl, rfl, rfl, fun _ => rfl, fun _ => rfl⟩⟩
  rw [step_read hp]
  refine ⟨fun ha hf => ?_, fun ha hf => ?_, fun r hr => ?_⟩
  · simp [hostRead_reserved ha, raise_of_no_fault, hf]
  · simp [hostRead_reserved ha, raise_of_fault, hf]
  · rw [hostRead_register hr, readReg_withHost]

/-- Settles O12: by the rules of a command write. -/
theorem commandWriteRunsTheDecodedInstruction : Obligations.CommandWriteRunsTheDecodedInstruction := by
  intro s w rest hp
  rw [step_writeCmd hp]
  exact ⟨fun hf => hostWriteCmd_faulted hf, fun hf hd => hostWriteCmd_error (e := .eOpcode) hf hd,
    fun hf hd => hostWriteCmd_error (e := .eField) hf hd, fun i hf hd => hostWriteCmd_ok hf hd⟩

end Sys2Proof.Machine
end

section
/-! SUPPORT. What each of the 16-bit words decodes to (spec/30_encoding.md R71 to R73): the opcode selects, and the bits
that the selected command does not use decide between the command and E_FIELD. -/

namespace Sys2Proof

theorem select_eq_none_iff {op : BitVec 4} {t : BitVec 3} {d : BitVec 5} :
    select op t d = none ↔ op.toNat = 0 ∨ op.toNat = 7 ∨ 10 ≤ op.toNat := by
  unfold select
  split
  case h_9 =>
    refine ⟨fun _ => ?_, fun _ => rfl⟩
    simp only [imp_false] at *
    omega
  all_goals exact ⟨nofun, fun _ => by omega⟩

theorem usesT_eq_false_iff (i : Instr) : i.usesT = false ↔ i.opcode.toNat ≠ 5 ∧ i.opcode.toNat ≠ 6 := by
  cases i <;> simp [Instr.usesT, Instr.opcode]

theorem usesD_eq_false_iff (i : Instr) : i.usesD = false ↔ i.opcode.toNat ≠ 6 := by
  cases i <;> simp [Instr.usesD, Instr.opcode]

/-- The reserved bits of `w` are zero, and so is each field that command `i` does not use (R71). -/
def Instr.UnusedBitsZero (i : Instr) (w : Word16) : Prop :=
  reservedHigh w = 0 ∧ reservedLow w = 0 ∧ (i.usesT = false → tField w = 0) ∧ (i.usesD = false → dField w = 0)

section
variable {w : Word16} {i : Instr}

theorem decode_of_unusedBitsZero (hs : select (opField w) (tField w) (dField w) = some i) (h : i.UnusedBitsZero w) :
    decode w = .ok i := by
  obtain ⟨hh, hl, ht, hd⟩ := h
  rw [decode, hs]
  dsimp only
  rw [if_neg (by simp [hh, hl]), if_neg fun hu => hu.2 (ht hu.1), if_neg fun hu => hu.2 (hd hu.1)]

theorem decode_of_not_unusedBitsZero (hs : select (opField w) (tField w) (dField w) = some i)
    (h : ¬ i.UnusedBitsZero w) : decode w = .error .eField := by
  have hor : decode w = .error .eField ∨ decode w = .ok i := by
    rw [decode, hs]
    dsimp only
    split_ifs <;> simp
  exact hor.resolve_right fun hd => h (decode_eq_ok hd).2

/-- The unused bits of the selected command, in the numbers of R73. -/
theorem unusedBitsZero_iff (hs : select (opField w) (tField w) (dField w) = some i) :
    i.UnusedBitsZero w ↔ w.toNat / 8192 = 0 ∧ w.toNat / 128 % 2 = 0 ∧
      (w.toNat % 16 = 5 ∨ w.toNat % 16 = 6 ∨ w.toNat / 16 % 8 = 0) ∧
      (w.toNat % 16 = 6 ∨ w.toNat / 256 % 32 = 0) := by
  obtain ⟨ho, -, -⟩ := select_eq_some hs
  simp only [Instr.UnusedBitsZero, usesT_eq_false_iff, usesD_eq_false_iff, ← ho, ← BitVec.toNat_inj, opField_toNat,
    tField_toNat, reservedLow_toNat, dField_toNat, reservedHigh_toNat, BitVec.ofNat_eq_ofNat, BitVec.toNat_ofNat]
  omega

/-- R73: a reserved opcode is refused first, whatever the other bits. -/
theorem decode_of_reservedOpcode (h : w.toNat % 16 = 0 ∨ w.toNat % 16 = 7 ∨ 10 ≤ w.toNat % 16) :
    decode w = .error .eOpcode := by
  simp [decode, select_eq_none_iff.mpr ((opField_toNat w).symm ▸ h)]

theorem exists_select_of_legalOpcode (h₀ : w.toNat % 16 ≠ 0) (h₇ : w.toNat % 16 ≠ 7) (h₁₀ : w.toNat % 16 < 10) :
    ∃ i, select (opField w) (tField w) (dField w) = some i := by
  refine Option.ne_none_iff_exists'.mp fun hn => ?_
  have := select_eq_none_iff.mp hn
  rw [opField_toNat] at this
  omega

/-- R73: a legal opcode with a reserved bit or an unused field not zero. -/
theorem decode_of_fieldFault (h₀ : w.toNat % 16 ≠ 0) (h₇ : w.toNat % 16 ≠ 7) (h₁₀ : w.toNat % 16 < 10)
    (h : w.toNat / 8192 ≠ 0 ∨ w.toNat / 128 % 2 ≠ 0 ∨
      (w.toNat % 16 ≠ 5 ∧ w.toNat % 16 ≠ 6 ∧ w.toNat / 16 % 8 ≠ 0) ∨
      (w.toNat % 16 ≠ 6 ∧ w.toNat / 256 % 32 ≠ 0)) : decode w = .error .eField := by
  obtain ⟨i, hs⟩ := exists_select_of_legalOpcode h₀ h₇ h₁₀
  refine decode_of_not_unusedBitsZero hs ?_
  rw [unusedBitsZero_iff hs]
  omega

/-- R73: every other word is a command. -/
theorem exists_decode_of_fields (h₀ : w.toNat % 16 ≠ 0) (h₇ : w.toNat % 16 ≠ 7) (h₁₀ : w.toNat % 16 < 10)
    (hh : w.toNat / 8192 = 0) (hl : w.toNat / 128 % 2 = 0)
    (ht : w.toNat % 16 = 5 ∨ w.toNat % 16 = 6 ∨ w.toNat / 16 % 8 = 0)
    (hd : w.toNat % 16 = 6 ∨ w.toNat / 256 % 32 = 0) : ∃ i, decode w = .ok i := by
  obtain ⟨i, hs⟩ := exists_select_of_legalOpcode h₀ h₇ h₁₀
  exact ⟨i, decode_of_unusedBitsZero hs ((unusedBitsZero_iff hs).mpr ⟨hh, hl, ht, hd⟩)⟩

/-- The fields of a decoded word are its command's (R71). -/
theorem fields_of_decode (h : decode w = .ok i) :
    i.opcode.toNat = w.toNat % 16 ∧ i.tBits.toNat = w.toNat / 16 % 8 ∧ i.dBits.toNat = w.toNat / 256 % 32 := by
  have hw := encode_toNat i
  rw [← encode_of_decode h] at hw
  have := i.opcode.isLt
  have := i.tBits.isLt
  have := i.dBits.isLt
  omega

end

/-! ## The rows of the opcode table -/

/-- A selected row fixes a field of the word where the row's mask is all ones (R72). -/
theorem field_of_selects {r : OpcodeRow} {w : Word16} (h : r.selects w = true) {start len : Nat}
    (hm : r.mask.extractLsb' start len = BitVec.allOnes len) :
    w.extractLsb' start len = r.pattern.extractLsb' start len := by
  have hw : w &&& r.mask = r.pattern := eq_of_beq h
  rw [← hw, BitVec.extractLsb'_and, hm, BitVec.and_allOnes]

/-- Every mask covers the opcode and the reserved bits. -/
theorem opcodeTable_mask : ∀ r ∈ opcodeTable,
    opField r.mask = BitVec.allOnes 4 ∧ reservedHigh r.mask = BitVec.allOnes 3 ∧
      reservedLow r.mask = BitVec.allOnes 1 := by
  decide

/-- Every pattern is zero outside the opcode. -/
theorem opcodeTable_pattern : ∀ r ∈ opcodeTable,
    reservedHigh r.pattern = 0 ∧ reservedLow r.pattern = 0 ∧ tField r.pattern = 0 ∧ dField r.pattern = 0 := by
  decide

/-- The command of each row, and the fields it does not use covered by the row's mask. -/
theorem opcodeTable_command {r : OpcodeRow} (hr : r ∈ opcodeTable) (t : BitVec 3) (d : BitVec 5) :
    ∃ i, select (opField r.pattern) t d = some i ∧ i.mnemonic = r.mnemonic ∧
      (i.usesT = false → tField r.mask = BitVec.allOnes 3) ∧ (i.usesD = false → dField r.mask = BitVec.allOnes 5) := by
  simp only [opcodeTable, List.mem_cons, List.not_mem_nil, or_false] at hr
  rcases hr with rfl | rfl | rfl | rfl | rfl | rfl | rfl | rfl
  · exact ⟨.pack, rfl, rfl, fun _ => by decide, fun _ => by decide⟩
  · exact ⟨.unpack, rfl, rfl, fun _ => by decide, fun _ => by decide⟩
  · exact ⟨.tobytes, rfl, rfl, fun _ => by decide, fun _ => by decide⟩
  · exact ⟨.split, rfl, rfl, fun _ => by decide, fun _ => by decide⟩
  · exact ⟨.append3 t, rfl, rfl, nofun, fun _ => by decide⟩
  · exact ⟨.join d t, rfl, rfl, nofun, nofun⟩
  · exact ⟨.csum, rfl, rfl, fun _ => by decide, fun _ => by decide⟩
  · exact ⟨.verify, rfl, rfl, fun _ => by decide, fun _ => by decide⟩

/-- A word that a row selects decodes to the command of that row (R72). -/
theorem decode_of_selects {r : OpcodeRow} {w : Word16} (hr : r ∈ opcodeTable) (h : r.selects w = true) :
    ∃ i, decode w = .ok i ∧ i.mnemonic = r.mnemonic := by
  obtain ⟨mo, mh, ml⟩ := opcodeTable_mask r hr
  obtain ⟨ph, pl, pt, pd⟩ := opcodeTable_pattern r hr
  obtain ⟨i, hs, hi, mt, md⟩ := opcodeTable_command hr (tField w) (dField w)
  have ho : opField w = opField r.pattern := field_of_selects h mo
  refine ⟨i, decode_of_unusedBitsZero (ho ▸ hs) ⟨?_, ?_, fun hu => ?_, fun hu => ?_⟩, hi⟩
  · exact (field_of_selects h mh).trans ph
  · exact (field_of_selects h ml).trans pl
  · exact (field_of_selects h (mt hu)).trans pt
  · exact (field_of_selects h (md hu)).trans pd

theorem tableRow (i : Instr) : Laws.TableRow.Statement i := by
  cases i with
  | pack => exact Laws.TableRow.pack
  | unpack => exact Laws.TableRow.unpack
  | tobytes => exact Laws.TableRow.tobytes
  | split => exact Laws.TableRow.split
  | append3 t => exact Laws.TableRow.append3 t
  | join d t => exact Laws.TableRow.join d t
  | csum => exact Laws.TableRow.csum
  | verify => exact Laws.TableRow.verify

/-- No two rows bear one mnemonic (R72). -/
theorem row_eq_of_mnemonic_eq : ∀ r ∈ opcodeTable, ∀ q ∈ opcodeTable, r.mnemonic = q.mnemonic → r = q := by
  decide

/-- The encoder's word is selected by the command's own row (R72). -/
theorem selects_encode {r : OpcodeRow} {i : Instr} (hr : r ∈ opcodeTable) (h : i.mnemonic = r.mnemonic) :
    r.selects (encode i) = true := by
  have hm : i.mnemonic ∈ (opcodeTable.filter fun q => q.selects (encode i)).map (·.mnemonic) := by
    rw [tableRow i]
    exact List.mem_singleton_self _
  obtain ⟨q, hq, hqm⟩ := List.mem_map.mp hm
  obtain ⟨hqt, hqs⟩ := List.mem_filter.mp hq
  rwa [row_eq_of_mnemonic_eq r hr q hqt (h.symm.trans hqm.symm)]

/-- Settles O18: a row fixes the fields its command does not use, and the encoder's word lies in its command's row. -/
theorem wordsSelectTheirTableRow : Obligations.WordsSelectTheirTableRow := by
  refine ⟨fun w r hr => ⟨decode_of_selects hr, ?_⟩, fun w t h => ?_, fun w d t h => ?_, fun w i h => ?_⟩
  · rintro ⟨i, hd, hm⟩
    rw [encode_of_decode hd]
    exact selects_encode hr hm
  · obtain ⟨-, ht, -⟩ := fields_of_decode h
    exact ht
  · obtain ⟨-, ht, hd⟩ := fields_of_decode h
    exact ⟨hd, ht⟩
  · obtain ⟨ho, -, -⟩ := fields_of_decode h
    exact ho

end Sys2Proof
end

section
/-! SUPPORT. Decoding is total, and its faults are raised by the step (spec/30_encoding.md R73, R76). -/

namespace Sys2Proof.Machine

/-- Settles O19: by what each word decodes to, and the rules of a command write. -/
theorem everyWordIsACommandOrOneDecodeFault : Obligations.EveryWordIsACommandOrOneDecodeFault := by
  intro s w rest hp hf
  obtain ⟨-, hopcode, hfield, hrun⟩ := commandWriteRunsTheDecodedInstruction s w rest hp
  refine ⟨fun h => hopcode hf (decode_of_reservedOpcode h),
    fun h₀ h₇ h₁₀ => ⟨fun h => hfield hf (decode_of_fieldFault h₀ h₇ h₁₀ h), fun hh hl ht hd => ?_⟩,
    fun d t hdec hd => ?_⟩
  · obtain ⟨i, hi⟩ := exists_decode_of_fields h₀ h₇ h₁₀ hh hl ht hd
    exact ⟨i, hi, encode_of_decode hi, hrun i hf hi⟩
  · rw [hrun _ hf hdec]
    rcases exec_join_cases d t { s with pending := rest } with ⟨-, h⟩ | ⟨hlt, -⟩ | ⟨hlt, -⟩
    · exact h
    · omega
    · omega

end Sys2Proof.Machine
end

section
/-! SUPPORT. Bit by bit: packed indices, the fields of a string, and the bytes of a register file (spec/00_scope.md R11,
R12, spec/41_bitpacker.md R100 to R103). Beyond its end a string reads as zeros, `b.getD p false`. -/

namespace Sys2Proof.Machine

/-! ## Strings -/

/-- The bits of a value split into its upper and its lower bits. -/
theorem bin_add (a b v : Nat) : bin (a + b) v = bin a (v / 2 ^ b) ++ bin b (v % 2 ^ b) := by
  refine List.ext_getElem (by simp) fun j h₁ h₂ => ?_
  rw [length_bin] at h₁
  rw [getElem_bin, List.getElem_append]
  split
  · next h =>
    rw [length_bin] at h
    rw [getElem_bin, Nat.testBit_div_two_pow]
    congr 1
    omega
  · next h =>
    rw [length_bin] at h
    rw [getElem_bin, length_bin, Nat.testBit_mod_two_pow, decide_eq_true (by omega), Bool.true_and]
    congr 1
    omega

@[simp] theorem packIndices_append (xs ys : List Idx) :
    packIndices (xs ++ ys) = packIndices xs ++ packIndices ys := by
  simp [packIndices]

theorem field_packIndices (xs : List Idx) (i : Nat) (h : i < xs.length) :
    substr (packIndices xs) (11 * i) (11 * i + 10) = bin 11 (xs[i]).toNat := by
  rw [substr_index]
  exact field_flatMap 11 (fun x : Idx => bin 11 x.toNat) (fun x => length_bin 11 x.toNat) xs i h

/-- Bit j of field i of a string is bit 10 - j of index i (R103). -/
theorem getLsbD_indexOf (s : BitString) (i j : Nat) (h : 11 * i + 11 ≤ s.length) (hj : j < 11) :
    (indexOf s i).getLsbD (10 - j) = s.getD (11 * i + j) false := by
  have hbit : (bin 11 (indexOf s i).toNat)[j]'(by simpa using hj) = (indexOf s i).getLsbD (10 - j) := by
    rw [getElem_bin]
    rfl
  rw [← hbit, List.getD_eq_getElem _ _ (by omega)]
  simp only [bin_indexOf s i h, List.getElem_take, List.getElem_drop]

/-- Bit j of field i of packed indices is bit 10 - j of index i (R101). -/
theorem getD_packIndices (xs : List Idx) (i j : Nat) (hi : i < xs.length) (hj : j < 11) :
    (packIndices xs).getD (11 * i + j) false = (xs[i]).getLsbD (10 - j) := by
  rw [← getLsbD_indexOf _ i j (by rw [length_packIndices]; omega) hj, indexOf_packIndices xs i hi]

/-- A byte of a string is unchanged by what the string is cut to, if the byte stays. -/
theorem byteOf_take (s : BitString) (n k : Nat) (h : 8 * k + 8 ≤ n) : byteOf (s.take n) k = byteOf s k := by
  apply byteOf_congr
  rw [List.drop_take, List.take_take, Nat.min_eq_left (by omega)]

/-- Bit j of byte k of a string padded with zeros (R100, R105). -/
theorem getLsbD_byteOf_zeros (b : BitString) (c k j : Nat) (h : 8 * k + 8 ≤ b.length + c) (hj : j < 8) :
    (byteOf (b ++ zeros c) k).getLsbD (7 - j) = b.getD (8 * k + j) false := by
  rw [getLsbD_byteOf _ _ _ (by simpa using h) hj, List.getElem_append]
  split
  · next hlt => rw [List.getD_eq_getElem _ _ hlt]
  · next hge =>
    rw [List.getD_eq_default _ _ (by omega)]
    exact List.getElem_replicate ..

/-! ## Bytes of a register file -/

/-- A byte of a register file is given by its eight bits. -/
theorem getElem_eq_some_iff_fileBit (f : Vector (Option Byte) 33) (k : Nat) (hk : k < 33) (x : Byte) :
    f[k] = some x ↔ ∀ j, j < 8 → fileBit f (8 * k + j) = some (x.getLsbD (7 - j)) := by
  have hbit : ∀ j, j < 8 → fileBit f (8 * k + j) = (f[k]).map fun b => b.getLsbD (7 - j) := by
    intro j hj
    have hdiv : (8 * k + j) / 8 = k := by omega
    have hmod : (8 * k + j) % 8 = j := by omega
    rw [fileBit_of_getElem f _ (by omega)]
    simp only [hdiv, hmod]
  refine ⟨fun h j hj => by rw [hbit j hj, h]; rfl, fun h => ?_⟩
  cases hf : f[k] with
  | none =>
    have h0 := h 0 (by omega)
    rw [hbit 0 (by omega), hf] at h0
    cases h0
  | some y =>
    refine congrArg some (BitVec.eq_of_getLsbD_eq fun i hi => ?_)
    have hj := h (7 - i) (by omega)
    rw [hbit _ (by omega), hf, Nat.sub_sub_self (by omega)] at hj
    exact Option.some.inj hj

/-! ## The loaded string -/

section
variable {s : State} {b : BitString}

theorem storeWritten_of_load (h : load s = .ok b) : s.blen.toNat ≤ 264 ∧ s.storeWritten := by
  rcases load_cases s with ⟨-, e⟩ | ⟨-, -, e⟩ | ⟨hl, hw, -⟩
  · cases e.symm.trans h
  · cases e.symm.trans h
  · exact ⟨hl, hw⟩

theorem exists_load_of_storeWritten (hl : s.blen.toNat ≤ 264) (hw : s.storeWritten) : ∃ b, load s = .ok b := by
  obtain ⟨b, hb, -⟩ := load_written s hl hw
  exact ⟨b, hb⟩

/-- The loaded string is the first BLEN bits of the store (R100). -/
theorem fileBit_of_load (h : load s = .ok b) (p : Nat) (hp : p < s.blen.toNat) :
    fileBit s.bitb p = some (b.getD p false) := by
  obtain ⟨hl, hw⟩ := storeWritten_of_load h
  obtain ⟨c, hc, hlen, hbits⟩ := load_written s hl hw
  cases hc.symm.trans h
  rw [hbits p (by omega), List.getD_eq_getElem _ _ (by omega)]

theorem bitb_of_load (h : load s = .ok b) (k : Nat) (hk : k < 33) (h8 : 8 * k + 8 ≤ s.blen.toNat) :
    s.bitb[k] = some (byteOf b k) := by
  have hlen := length_of_load h
  rw [getElem_eq_some_iff_fileBit]
  intro j hj
  rw [fileBit_of_load h _ (by omega), getLsbD_byteOf b k j (by omega) hj, List.getD_eq_getElem]

end

/-- The length of a string that fits the store fits BLEN. -/
theorem blen_store (b : BitString) (s : State) (h : b.length ≤ 264) : (store b s).blen.toNat = b.length := by
  rw [store_blen, BitVec.toNat_ofNat, Nat.mod_eq_of_lt (by omega)]

end Sys2Proof.Machine
end

section
/-! SUPPORT. What the BitPacker commands leave, read through the loaded string (spec/41_bitpacker.md R101 to R111). -/

namespace Sys2Proof.Machine

/-! ## Command words -/

/-- The encoder's word decodes to its command (R70 to R75). -/
theorem decode_encode (i : Instr) : decode (encode i) = .ok i := by
  cases i with
  | join d t => revert d t; decide
  | append3 t => revert t; decide
  | _ => decide

/-- The word with the fields of a command, as a number, decodes to the command (R71). -/
theorem decode_ofNat {i : Instr} {n : Nat} (h : n = i.dBits.toNat * 256 + i.tBits.toNat * 16 + i.opcode.toNat) :
    decode (BitVec.ofNat 16 n) = .ok i := by
  rw [h, ← encode_toNat, BitVec.ofNat_toNat, BitVec.setWidth_eq, decode_encode]

/-! ## Completion -/

section
variable {s : State} {b : BitString}

theorem exec_pack_of_ready (h : ready .pack s) : exec .pack s = .next (packed s) := by
  obtain ⟨hl, hw⟩ := h
  rw [exec_eq_plan, plan, if_neg (Nat.not_lt.mpr hl), readIndices_written _ s hl hw]
  rfl

theorem exec_unpack_of_load (h11 : s.blen.toNat % 11 = 0) (h : load s = .ok b) :
    exec .unpack s = .next (unpacked b s) := by
  obtain ⟨hl, -⟩ := storeWritten_of_load h
  rw [exec_eq_plan, plan, if_neg (by omega), h]
  rfl

theorem exec_tobytes_of_load (h : load s = .ok b) : exec .tobytes s = .next (bytesLoaded b s) := by
  obtain ⟨hl, -⟩ := storeWritten_of_load h
  rw [exec_eq_plan, plan, if_neg (by omega), h]
  rfl

theorem exec_split_of_load (hl : s.blen.toNat = 264) (h : load s = .ok b) :
    exec .split s = .next (splitInto b s) := by
  rw [exec_eq_plan, plan, if_neg (not_not.mpr hl), h]
  rfl

theorem exec_append3_of_load {x : BitVec 3} (hl : s.blen.toNat = 253) (h : load s = .ok b) :
    exec (.append3 x) s = .next (store (b ++ tailString x) s) := by
  rw [exec_eq_plan, plan, if_neg (not_not.mpr hl), h]
  rfl

theorem exec_join_of_cs {d : BitVec 5} {x : BitVec 3} {c : Byte} (hd : d.toNat < 24) (h : s.cs = some c) :
    exec (.join d x) s = .next { s with idx := s.idx.set d.toNat (some (BitVec.ofNat 11 (joinIndex x c))) } := by
  rcases exec_join_cases d x s with ⟨hd', -⟩ | ⟨-, hc, -⟩ | ⟨_, c', hc, e⟩
  · omega
  · cases hc.symm.trans h
  · cases hc.symm.trans h
    exact e

end

/-! ## PACK -/

/-- The string that PACK stores. -/
def packedString (s : State) : BitString := packIndices ((List.range s.nidx.toNat).map s.idxVal)

@[simp] theorem length_packedString (s : State) : (packedString s).length = 11 * s.nidx.toNat := by
  simp [packedString]

theorem packed_eq_store (s : State) : packed s = store (packedString s) s := rfl

section
variable {s : State} (hn : s.nidx.toNat ≤ 24)
include hn

theorem length_packedString_le : (packedString s).length ≤ 264 := by
  rw [length_packedString]
  omega

theorem blen_packed : (packed s).blen.toNat = 11 * s.nidx.toNat := by
  rw [packed_eq_store, blen_store _ _ (length_packedString_le hn), length_packedString]

theorem load_packed : load (packed s) = .ok (packedString s) :=
  load_store _ s (length_packedString_le hn)

theorem fileBit_packed (p : Nat) (hp : p < 264) : fileBit (packed s).bitb p = some ((packedString s).getD p false) :=
  fileBit_store _ s (length_packedString_le hn) p hp

end

theorem getD_packedString (s : State) (i j : Nat) (hi : i < s.nidx.toNat) (hj : j < 11) :
    (packedString s).getD (11 * i + j) false = (s.idxVal i).getLsbD (10 - j) := by
  rw [packedString, getD_packIndices _ i j (by simpa using hi) hj, List.getElem_map, List.getElem_range]

/-! ## UNPACK -/

section
variable (b : BitString) (s : State)

theorem nidx_unpacked (hl : s.blen.toNat ≤ 264) : (unpacked b s).nidx.toNat = s.blen.toNat / 11 := by
  rw [unpacked, BitVec.toNat_ofNat, Nat.mod_eq_of_lt (by omega)]

theorem idx_unpacked_of_lt (i : Nat) (h : i < 24) (hi : i < s.blen.toNat / 11) :
    (unpacked b s).idx[i] = some (indexOf b i) := by
  simp [unpacked, hi]

theorem idx_unpacked_of_le (i : Nat) (h : i < 24) (hi : s.blen.toNat / 11 ≤ i) :
    (unpacked b s).idx[i] = s.idx[i] := by
  simp [unpacked, Nat.not_lt.mpr hi, h]

end

/-! ## TOBYTES -/

section
variable {b : BitString} {s : State} (hb : b.length = s.blen.toNat)

theorem buflen_bytesLoaded (b : BitString) (hl : s.blen.toNat ≤ 264) :
    (bytesLoaded b s).buflen.toNat = ceilDiv s.blen.toNat 8 := by
  rw [bytesLoaded, BitVec.toNat_ofNat, Nat.mod_eq_of_lt (by unfold ceilDiv; omega)]

include hb

/-- The buffer holds the string's bits and zeros after them (R105). -/
theorem fileBit_bytesLoaded (p : Nat) (hp : p < 264) : fileBit (bytesLoaded b s).buf p = some (b.getD p false) := by
  have hdiv : 8 * (p / 8) + p % 8 = p := by omega
  rw [fileBit_of_getElem _ _ (by omega)]
  simp only [bytesLoaded, getElem_tabulate, Option.map_some, Option.some.injEq]
  split
  · next hk =>
    have hk8 := (lt_ceilDiv_eight _ _).mp hk
    rw [getLsbD_byteOf_zeros _ _ _ _ (by unfold ceilDiv at *; omega) (by omega), hdiv]
  · next hk =>
    rw [lt_ceilDiv_eight] at hk
    rw [List.getD_eq_default _ _ (by omega)]
    exact BitVec.getLsbD_zero

/-- A whole number of bytes is moved as it is (R106). -/
theorem buf_bytesLoaded {m : Nat} (hm : s.blen.toNat = 8 * m) (k : Nat) (h : k < 33) (hk : k < m) :
    (bytesLoaded b s).buf[k] = some (byteOf b k) := by
  rw [getElem_eq_some_iff_fileBit]
  intro j hj
  rw [fileBit_bytesLoaded hb _ (by omega), getLsbD_byteOf b k j (by omega) hj, List.getD_eq_getElem]

end

/-! ## SPLIT -/

section
variable {b : BitString} (hb : b.length = 264) (s : State)

theorem splitInto_eq_store (b : BitString) (s : State) :
    splitInto b s = store (b.take 256) { s with claim := some (byteOf b 32) } := rfl

include hb

theorem blen_splitInto : (splitInto b s).blen.toNat = 256 := by
  rw [splitInto_eq_store, blen_store _ _ (by rw [List.length_take]; omega), List.length_take]
  omega

theorem load_splitInto : load (splitInto b s) = .ok (b.take 256) := by
  rw [splitInto_eq_store, load_store _ _ (by rw [List.length_take]; omega)]

theorem fileBit_splitInto_of_le (p : Nat) (hp : 256 ≤ p) (hp' : p < 264) :
    fileBit (splitInto b s).bitb p = some false := by
  rw [splitInto_eq_store, fileBit_store _ _ (by rw [List.length_take]; omega) _ hp',
    List.getD_eq_default _ _ (by rw [List.length_take]; omega)]

end

end Sys2Proof.Machine
end

section
/-! SUPPORT. The statements about one command each: its word, its faults in their order, its result and its frame
(spec/41_bitpacker.md R101 to R111). -/

namespace Sys2Proof.Machine

/-- Settles O22: by what PACK can do, and the bits of the packed string. -/
theorem packConcatenatesTheIndices : Obligations.PackConcatenatesTheIndices := by
  refine ⟨decode_encode .pack, fun s => ?_⟩
  rcases exec_pack_cases s with ⟨hl, e⟩ | ⟨hl, hw, e⟩ | ⟨⟨hl, hw⟩, e⟩
  · exact ⟨fun _ => e, fun h => absurd hl (Nat.not_lt.mpr h), fun h => absurd hl (Nat.not_lt.mpr h)⟩
  · exact ⟨fun h => absurd h (Nat.not_lt.mpr hl), fun _ _ => e, fun _ h => absurd h hw⟩
  · refine ⟨fun h => absurd h (Nat.not_lt.mpr hl), fun _ h => absurd hw h, fun _ _ =>
      ⟨_, e, blen_packed hl, fun i j hi hj => ?_, fun p hp hp' => ?_, rfl⟩⟩
    · rw [fileBit_packed hl _ (by omega), getD_packedString s i j hi hj]
    · rw [fileBit_packed hl _ hp', List.getD_eq_default _ _ (by rwa [length_packedString])]

/-- Settles O24: by what UNPACK can do, and the bits of a field. -/
theorem unpackSplitsTheString : Obligations.UnpackSplitsTheString := by
  refine ⟨decode_encode .unpack, fun s => ?_⟩
  rcases exec_unpack_cases s with ⟨hl, e⟩ | ⟨hl, h11, hw, e⟩ | ⟨⟨hl, h11, hw⟩, b, hb, e⟩
  · exact ⟨fun _ => e, by omega, by omega⟩
  · exact ⟨by omega, fun _ _ _ => e, fun _ _ h => absurd h hw⟩
  · have hlen := length_of_load hb
    refine ⟨by omega, fun _ _ h => absurd hw h, fun _ _ _ => ⟨_, e, nidx_unpacked b s hl,
      fun i h hi => ⟨_, idx_unpacked_of_lt b s i h hi, fun j hj => ?_⟩, idx_unpacked_of_le b s, rfl⟩⟩
    rw [fileBit_of_load hb _ (by omega), getLsbD_indexOf b i j (by omega) hj]

/-- Settles O26: by what TOBYTES can do, and the bits of the padded buffer. -/
theorem tobytesPadsWithZeros : Obligations.TobytesPadsWithZeros := by
  refine ⟨decode_encode .tobytes, fun s => ?_⟩
  rcases exec_tobytes_cases s with ⟨hl, e⟩ | ⟨hl, hw, e⟩ | ⟨⟨hl, hw⟩, b, hb, e⟩
  · exact ⟨fun _ => e, by omega, by omega⟩
  · exact ⟨by omega, fun _ _ => e, fun _ h => absurd h hw⟩
  · have hlen := length_of_load hb
    refine ⟨by omega, fun _ h => absurd hw h, fun _ _ =>
      ⟨_, e, buflen_bytesLoaded b hl, fun p hp => ?_, fun p hp hp' => ?_, rfl⟩⟩
    · rw [fileBit_bytesLoaded hlen p (by omega), fileBit_of_load hb p hp]
    · rw [fileBit_bytesLoaded hlen p hp', List.getD_eq_default _ _ (by omega)]

/-- Settles O27: by what TOBYTES can do, and the bytes of the loaded string. -/
theorem tobytesIsTotalOnWrittenStrings : Obligations.TobytesIsTotalOnWrittenStrings := by
  refine ⟨fun s hf => ?_, fun s hr => ?_⟩
  · have hraise : ∀ c, exec .tobytes s = .next (raise c s) →
        ¬ ∃ t, exec .tobytes s = .next t ∧ t.status.fault = false := by
      rintro c e ⟨t, ht, hft⟩
      cases e.symm.trans ht
      simp at hft
    rcases exec_tobytes_cases s with ⟨hl, e⟩ | ⟨-, hw, e⟩ | ⟨hr, b, -, e⟩
    · exact iff_of_false (hraise _ e) fun ⟨h, _⟩ => absurd hl (Nat.not_lt.mpr h)
    · exact iff_of_false (hraise _ e) fun ⟨_, h⟩ => hw h
    · exact iff_of_true ⟨_, e, hf⟩ hr
  · obtain ⟨hl, hw⟩ := hr
    obtain ⟨b, hb⟩ := exists_load_of_storeWritten hl hw
    have hlen := length_of_load hb
    refine ⟨_, b, exec_tobytes_of_load hb, hb, buflen_bytesLoaded b hl, fun m hm k h hk => ?_⟩
    have hk' : k < b.length / 8 := by omega
    rw [buf_bytesLoaded hlen hm k h hk, toBytes, List.getElem?_map, List.getElem?_range hk', Option.map_some]

/-- Settles O28: by what SPLIT can do; the bytes of the store are those of the loaded string. -/
theorem splitTakesTheLastByte : Obligations.SplitTakesTheLastByte := by
  refine ⟨decode_encode .split, fun s => ?_⟩
  rcases exec_split_cases s with ⟨hl, e⟩ | ⟨hl, hw, e⟩ | ⟨⟨hl, hw⟩, b, hb, e⟩
  · exact ⟨fun _ => e, fun h => absurd h hl, fun h => absurd h hl⟩
  · exact ⟨fun h => absurd hl h, fun _ _ => e, fun _ h => absurd h hw⟩
  · have hlen : b.length = 264 := (length_of_load hb).trans hl
    have hblen := blen_splitInto hlen s
    refine ⟨fun h => absurd hl h, fun _ h => absurd hw h, fun _ _ =>
      ⟨_, e, (bitb_of_load hb 32 (by omega) (by omega)).symm, hblen, fun k hk => ?_, ?_, rfl⟩⟩
    · rw [bitb_of_load hb k (by omega) (by omega),
        bitb_of_load (load_splitInto hlen s) k (by omega) (by omega), byteOf_take _ _ _ (by omega)]
    · rw [getElem_eq_some_iff_fileBit]
      intro j hj
      rw [fileBit_splitInto_of_le hlen s _ (by omega) (by omega)]
      simp

/-- The bits of `(y & 0xF8) | x`, first to last: five of y, then the three of x (R109). -/
theorem getLsbD_mask_or_tail (y : Byte) (x : BitVec 3) (j : Nat) (hj : j < 8) :
    ((y &&& 0xF8) ||| x.setWidth 8).getLsbD (7 - j) = if j < 5 then y.getLsbD (7 - j) else x.getLsbD (7 - j) := by
  interval_cases j <;> simp

/-- Bit j of the appended tail is bit 2 - j of the immediate (R74). -/
theorem getD_append_tailString (b : BitString) (x : BitVec 3) (j : Nat) (hj : j < 3) :
    (b ++ tailString x).getD (b.length + j) false = x.getLsbD (2 - j) := by
  rw [List.getD_append_right _ _ _ _ (by omega), Nat.add_sub_cancel_left, tailString,
    List.getD_eq_getElem _ _ (by simpa using hj), getElem_bin]
  rfl

theorem length_append_tailString (b : BitString) (x : BitVec 3) : (b ++ tailString x).length = b.length + 3 := by
  rw [List.length_append, tailString, length_bin]

section
variable {s : State} {b : BitString} (hb : load s = .ok b) (hl : s.blen.toNat = 253) (x : BitVec 3)
include hb hl

theorem fileBit_append_tailString (p : Nat) (hp : p < 264) :
    fileBit (store (b ++ tailString x) s).bitb p = some ((b ++ tailString x).getD p false) := by
  have hlen := length_of_load hb
  exact fileBit_store _ s (by rw [length_append_tailString]; omega) p hp

theorem fileBit_append_tailString_of_lt (p : Nat) (hp : p < 253) :
    fileBit (store (b ++ tailString x) s).bitb p = fileBit s.bitb p := by
  have hlen := length_of_load hb
  rw [fileBit_append_tailString hb hl x p (by omega), fileBit_of_load hb p (by omega),
    List.getD_append _ _ _ _ (by omega)]

theorem blen_append_tailString : (store (b ++ tailString x) s).blen.toNat = 256 := by
  have hlen := length_of_load hb
  rw [blen_store _ s (by rw [length_append_tailString]; omega), length_append_tailString]
  omega

theorem bitb_append_tailString_of_lt (k : Nat) (hk : k < 31) :
    (store (b ++ tailString x) s).bitb[k] = s.bitb[k] := by
  obtain ⟨-, hw⟩ := storeWritten_of_load hb
  obtain ⟨y, hy⟩ := Option.isSome_iff_exists.mp (hw k (by omega) (by omega))
  rw [hy, getElem_eq_some_iff_fileBit]
  intro j hj
  rw [fileBit_append_tailString_of_lt hb hl x _ (by omega), (getElem_eq_some_iff_fileBit _ _ _ _).mp hy j hj]

/-- Byte 31 holds the last five bits of the old string and the three bits of the tail. -/
theorem bitb_append_tailString_31 :
    (store (b ++ tailString x) s).bitb[31] = (s.bitb[31]).map fun y => (y &&& 0xF8) ||| x.setWidth 8 := by
  obtain ⟨-, hw⟩ := storeWritten_of_load hb
  have hlen := length_of_load hb
  obtain ⟨y, hy⟩ := Option.isSome_iff_exists.mp (hw 31 (by omega) (by omega))
  rw [hy, Option.map_some, getElem_eq_some_iff_fileBit]
  intro j hj
  rw [getLsbD_mask_or_tail y x j hj]
  split
  · next h5 =>
    rw [fileBit_append_tailString_of_lt hb hl x _ (by omega), (getElem_eq_some_iff_fileBit _ _ _ _).mp hy j hj]
  · next h5 =>
    have hp : 8 * 31 + j = b.length + (j - 5) := by omega
    rw [fileBit_append_tailString hb hl x _ (by omega), hp, getD_append_tailString b x _ (by omega)]
    congr 2
    omega

theorem bitb_append_tailString_32 : (store (b ++ tailString x) s).bitb[32] = some 0 := by
  have hlen := length_of_load hb
  rw [getElem_eq_some_iff_fileBit]
  intro j hj
  rw [fileBit_append_tailString hb hl x _ (by omega),
    List.getD_eq_default _ _ (by rw [length_append_tailString]; omega)]
  simp

end

/-- Settles O30: by what APPEND3 can do, and the bytes it leaves in the store. -/
theorem append3SetsTheTailBits : Obligations.Append3SetsTheTailBits := by
  refine ⟨fun x => decode_ofNat (by simp [Instr.dBits, Instr.tBits, Instr.opcode]; omega), fun x s => ?_⟩
  rcases exec_append3_cases x s with ⟨hl, e⟩ | ⟨hl, hw, e⟩ | ⟨⟨hl, hw⟩, b, hb, e⟩
  · exact ⟨fun _ => e, fun h => absurd h hl, fun h => absurd h hl⟩
  · exact ⟨fun h => absurd hl h, fun _ _ => e, fun _ h => absurd h hw⟩
  · exact ⟨fun h => absurd hl h, fun _ h => absurd hw h, fun _ _ =>
      ⟨_, e, blen_append_tailString hb hl x, bitb_append_tailString_of_lt hb hl x, bitb_append_tailString_31 hb hl x,
        bitb_append_tailString_32 hb hl x, rfl⟩⟩

/-- Settles O32: by what JOIN can do; its index fits 11 bits. -/
theorem joinFormsTheIndex : Obligations.JoinFormsTheIndex := by
  refine ⟨fun d x => decode_ofNat (by simp [Instr.dBits, Instr.tBits, Instr.opcode]; omega), fun d x s => ?_⟩
  rcases exec_join_cases d x s with ⟨hd, e⟩ | ⟨hd, hc, e⟩ | ⟨hd, c, hc, e⟩
  · exact ⟨fun _ => e, by omega, by omega⟩
  · exact ⟨by omega, fun _ _ => e, fun _ c h => by cases hc.symm.trans h⟩
  · refine ⟨by omega, fun _ h => (by cases hc.symm.trans h), fun _ c' h => ⟨_, ?_, e⟩⟩
    cases hc.symm.trans h
    have := joinIndex_le x c
    rw [BitVec.toNat_ofNat, Nat.mod_eq_of_lt (by omega), joinIndex]

end Sys2Proof.Machine
end

section
/-! SUPPORT. Commands one after another (spec/41_bitpacker.md R102, R104, R108, R110): the packed string of 24 indices
is the 256 entropy bits and the eight checksum bits, and PACK of 23 with APPEND3 makes the same 256 bits. -/

namespace Sys2Proof.Machine

/-! ## The entropy string -/

/-- The 256 entropy bits: 23 packed indices and the three tail bits (R102, R110). -/
def entropyString (f : Nat → Idx) (x : BitVec 3) : BitString := packIndices ((List.range 23).map f) ++ tailString x

@[simp] theorem length_entropyString (f : Nat → Idx) (x : BitVec 3) : (entropyString f x).length = 256 := by
  rw [entropyString, length_append_tailString, length_packIndices, List.length_map, List.length_range]

theorem toNat_topBits (v : Idx) : (v.extractLsb' 8 3).toNat = v.toNat / 256 := by
  have := v.isLt
  rw [BitVec.extractLsb'_toNat, Nat.shiftRight_eq_div_pow]
  omega

theorem packIndices_range_24 (f : Nat → Idx) :
    packIndices ((List.range 24).map f) =
      entropyString f ((f 23).extractLsb' 8 3) ++ bin 8 ((f 23).toNat % 256) := by
  have hlast : packIndices [f 23] = tailString ((f 23).extractLsb' 8 3) ++ bin 8 ((f 23).toNat % 256) := by
    rw [tailString, toNat_topBits]
    simpa [packIndices] using bin_add 3 8 (f 23).toNat
  rw [List.range_succ, List.map_append, packIndices_append, List.map_singleton, hlast, entropyString,
    List.append_assoc]

theorem substr_append_append (p q r : BitString) {a b : Nat} (ha : p.length = a) (hb : a + q.length = b + 1) :
    substr (p ++ q ++ r) a b = q := by
  rw [substr, List.append_assoc, List.drop_left' ha, List.take_left' (by omega)]

section
variable {s : State}

/-- APPEND3 after PACK of 23 indices leaves the entropy string (R110). -/
theorem exec_append3_packed (x : BitVec 3) (hn : s.nidx.toNat = 23) :
    exec (.append3 x) (packed s) = .next (store (entropyString s.idxVal x) s) := by
  rw [exec_append3_of_load (by rw [blen_packed (by omega), hn]) (load_packed (by omega)), packedString, hn,
    entropyString]
  rfl

variable (hn : s.nidx.toNat = 24)
include hn

theorem packedString_of_24 :
    packedString s =
      entropyString s.idxVal ((s.idxVal 23).extractLsb' 8 3) ++ bin 8 ((s.idxVal 23).toNat % 256) := by
  rw [packedString, hn, packIndices_range_24]

theorem checksumField_packedString : substr (packedString s) 256 263 = bin 8 ((s.idxVal 23).toNat % 256) := by
  rw [packedString_of_24 hn]
  simpa using substr_append_append (entropyString s.idxVal ((s.idxVal 23).extractLsb' 8 3))
    (bin 8 ((s.idxVal 23).toNat % 256)) [] (length_entropyString _ _) (by rw [length_bin])

/-- The last packed byte is the claimed checksum (R102, R108). -/
theorem byteOf_packedString : byteOf (packedString s) 32 = (s.idxVal 23).setWidth 8 := by
  rw [byteOf, checksumField_packedString hn, val_bin _ _ (by omega)]
  exact BitVec.eq_of_toNat_eq (by simp)

/-- The entropy string is the first 256 packed bits (R102). -/
theorem getD_packedString_of_lt (p : Nat) (hp : p < 256) :
    (packedString s).getD p false = (entropyString s.idxVal ((s.idxVal 23).extractLsb' 8 3)).getD p false := by
  rw [packedString_of_24 hn, List.getD_append _ _ _ _ (by simpa using hp)]

/-- SPLIT after PACK of 24 indices leaves the entropy string and the claimed checksum (R108). -/
theorem exec_split_packed :
    exec .split (packed s) =
      .next (store (entropyString s.idxVal ((s.idxVal 23).extractLsb' 8 3))
        { s with claim := some ((s.idxVal 23).setWidth 8) }) := by
  rw [exec_split_of_load (by rw [blen_packed (by omega), hn]) (load_packed (by omega)), splitInto_eq_store,
    byteOf_packedString hn, packedString_of_24 hn, List.take_left' (length_entropyString _ _)]
  rfl

end

/-! ## The entropy string in the store -/

section
variable {f : Nat → Idx} {x : BitVec 3} {s : State}

theorem blen_entropyString : (store (entropyString f x) s).blen.toNat = 256 := by
  rw [blen_store _ _ (by simp), length_entropyString]

theorem exec_tobytes_entropyString :
    exec .tobytes (store (entropyString f x) s) =
      .next (bytesLoaded (entropyString f x) (store (entropyString f x) s)) :=
  exec_tobytes_of_load (load_store _ _ (by simp))

theorem buflen_entropyString :
    (bytesLoaded (entropyString f x) (store (entropyString f x) s)).buflen.toNat = 32 := by
  rw [buflen_bytesLoaded _ (by rw [blen_entropyString]; omega), blen_entropyString]
  rfl

end

/-! ## IDX23 written anew -/

section
variable {s t : State} {v : Idx} (h : t.idx = s.idx.set 23 (some v))
include h

theorem idxVal_23_of_set : t.idxVal 23 = v := by
  simp [idxVal_eq _ 23 (by omega), h]

theorem idxVal_of_set (i : Nat) (hi : i < 23) : t.idxVal i = s.idxVal i := by
  simp [idxVal_eq _ i (by omega), h, show 23 ≠ i by omega]

/-- IDX23 is not among the 23 packed indices. -/
theorem entropyString_of_set (x : BitVec 3) : entropyString t.idxVal x = entropyString s.idxVal x := by
  rw [entropyString, List.map_congr_left fun i hi => idxVal_of_set h i (List.mem_range.mp hi), entropyString]

theorem indicesWritten_of_set (hw : s.indicesWritten 23) : t.indicesWritten 24 := by
  intro i hi _
  by_cases h23 : i = 23
  · simp [h, h23]
  · simpa [h, Ne.symm h23] using hw i hi (by omega)

end

/-! ## PACK after UNPACK -/

section
variable {s : State}

theorem ready_pack_unpacked (b : BitString) (hl : s.blen.toNat ≤ 264) : ready .pack (unpacked b s) := by
  have hnidx := nidx_unpacked b s hl
  refine ⟨by omega, fun i hi hlt => ?_⟩
  rw [idx_unpacked_of_lt b s i hi (by omega)]
  rfl

/-- The fields of a string of whole fields, packed, are the string (R104). -/
theorem packedString_unpacked {b : BitString} (hl : s.blen.toNat ≤ 264) (h11 : s.blen.toNat % 11 = 0)
    (hb : b.length = s.blen.toNat) : packedString (unpacked b s) = b := by
  have hvals : (List.range (s.blen.toNat / 11)).map (unpacked b s).idxVal =
      (List.range (s.blen.toNat / 11)).map (indexOf b) := by
    refine List.map_congr_left fun i hi => ?_
    have hi' := List.mem_range.mp hi
    rw [idxVal_eq _ i (by omega), idx_unpacked_of_lt b s i (by omega) hi']
    rfl
  rw [packedString, nidx_unpacked b s hl, hvals, packIndices_indexOf b _ (by omega),
    List.take_of_length_le (by omega)]

end

/-! ## The statements -/

/-- Settles O23: the loaded string is the packed one. -/
theorem packedFieldsAreTheIndices : Obligations.PackedFieldsAreTheIndices := by
  rintro s ⟨hn, hw⟩
  have hblen := blen_packed hn
  have hfield : ∀ i, i < s.nidx.toNat →
      substr (packedString s) (11 * i) (11 * i + 10) = bin 11 (s.idxVal i).toNat := by
    intro i hi
    rw [packedString, field_packIndices _ i (by simpa using hi), List.getElem_map, List.getElem_range]
  refine ⟨_, _, exec_pack_of_ready ⟨hn, hw⟩, load_packed hn, length_packedString s, hblen,
    fun i hi => ⟨hfield i hi, ?_⟩, fun h24 => ⟨by omega, ?_, ?_, checksumField_packedString h24⟩, by omega⟩
  · rw [hfield i hi, val_bin _ _ (s.idxVal i).isLt]
  · rw [packedString_of_24 h24, entropyString, List.append_assoc]
    exact substr_append_append [] _ _ rfl (by simp)
  · rw [packedString_of_24 h24, entropyString, substr_append_append _ _ _ (by simp) (by simp [tailString]),
      tailString, toNat_topBits]

/-- Settles O25: a stored string loads again, and the fields of a string and the string determine each other. -/
theorem packAndUnpackAreInverse : Obligations.PackAndUnpackAreInverse := by
  refine ⟨fun s hr => ?_, fun s hr => ?_⟩
  · obtain ⟨hn, hw⟩ := hr
    have hblen := blen_packed hn
    have hcount : (packed s).blen.toNat / 11 = s.nidx.toNat := by omega
    refine ⟨_, _, exec_pack_of_ready ⟨hn, hw⟩, exec_unpack_of_load (by omega) (load_packed hn),
      Vector.ext fun k hk => ?_, ?_⟩
    · by_cases hkn : k < s.nidx.toNat
      · rw [idx_unpacked_of_lt _ _ k hk (by omega), packedString, indexOf_packIndices _ k (by simpa using hkn),
          List.getElem_map, List.getElem_range, idx_eq_some_idxVal s k hk (hw k hk hkn)]
      · rw [idx_unpacked_of_le _ _ k hk (by omega)]
        rfl
    · rw [← BitVec.toNat_inj, nidx_unpacked _ _ (by omega), hcount]
  · obtain ⟨hl, h11, hw⟩ := hr
    obtain ⟨b, hb⟩ := exists_load_of_storeWritten hl hw
    have hlen := length_of_load hb
    have hstring := packedString_unpacked hl h11 hlen
    refine ⟨_, _, exec_unpack_of_load h11 hb, exec_pack_of_ready (ready_pack_unpacked b hl), ?_,
      fun p hp => ?_, fun p hp hp' => ?_⟩
    · rw [packed_eq_store, hstring, ← BitVec.toNat_inj, blen_store _ _ (by omega), hlen]
    · rw [packed_eq_store, hstring, fileBit_store _ _ (by omega) p (by omega), fileBit_of_load hb p hp]
    · rw [packed_eq_store, hstring, fileBit_store _ _ (by omega) p hp', List.getD_eq_default _ _ (by omega)]

/-- Settles O29: the last packed byte is the low byte of IDX23, and the first 256 bits stay. -/
theorem packThenSplitGivesEntropyAndClaim : Obligations.PackThenSplitGivesEntropyAndClaim := by
  intro s hn hw
  have hbit : ∀ i j, i < 24 → j < 11 → 11 * i + j < 256 →
      fileBit (store (entropyString s.idxVal ((s.idxVal 23).extractLsb' 8 3))
        { s with claim := some ((s.idxVal 23).setWidth 8) }).bitb (11 * i + j) =
        some ((s.idxVal i).getLsbD (10 - j)) := by
    intro i j hi hj hp
    rw [fileBit_store _ _ (by simp) _ (by omega), ← getD_packedString_of_lt hn _ hp,
      getD_packedString s i j (by omega) hj]
  refine ⟨_, _, exec_pack_of_ready ⟨hn.le, fun i h hi => hw i h (by omega)⟩, exec_split_packed hn, rfl,
    blen_entropyString, fun i j hi hj => hbit i j (by omega) hj (by omega),
    fun j hj => hbit 23 j (by omega) (by omega) (by omega), fun p hp hp' => ?_⟩
  rw [fileBit_store _ _ (by simp) p hp', List.getD_eq_default _ _ (by simpa using hp)]

/-- Settles O31: both ways the store comes to hold one entropy string, and TOBYTES reads no more than it. -/
theorem append3AgreesWithTheFullPack : Obligations.Append3AgreesWithTheFullPack := by
  intro s x last hn hw hx
  generalize hs' : ({ s with idx := s.idx.set 23 (some last), nidx := 24 } : State) = s'
  have hset : s'.idx = s.idx.set 23 (some last) := by rw [← hs']
  have hn' : s'.nidx.toNat = 24 := by rw [← hs']; rfl
  have hfull := getD_packedString_of_lt hn'
  have hsplit := exec_split_packed hn'
  rw [idxVal_23_of_set hset, hx, entropyString_of_set hset] at hfull hsplit
  have hw' : s'.indicesWritten s'.nidx.toNat := by
    rw [hn']
    exact indicesWritten_of_set hset hw
  refine ⟨_, _, _, _, _, _, exec_pack_of_ready ⟨by omega, by rwa [hn]⟩, exec_append3_packed x hn,
    exec_tobytes_entropyString, exec_pack_of_ready ⟨hn'.le, hw'⟩, hsplit, exec_tobytes_entropyString,
    blen_entropyString, fun q hq => ?_, rfl, buflen_entropyString, buflen_entropyString⟩
  rw [fileBit_store _ _ (by simp) q (by omega), fileBit_packed hn'.le q (by omega), hfull q hq]

end Sys2Proof.Machine
end

section
/-! SUPPORT. The host's two command sequences, CANDIDATE and VALIDATE, run to their ends (spec/30_encoding.md R78,
spec/41_bitpacker.md R112, spec/42_checksum.md R145). -/

namespace Sys2Proof.Machine

/-! ## Runs -/

theorem runsTo_succ {k : Nat} {s t u : State} (h : step s = .next t) (hr : runsTo k t u) : runsTo (k + 1) s u := by
  have hs : Sys2Proof.core.step s = .next t := h
  simp only [runsTo, Host.Core.run, hs]
  exact hr

theorem exists_step_of_runsTo_succ {k : Nat} {s u : State} (h : runsTo (k + 1) s u) :
    ∃ t, step s = .next t ∧ runsTo k t u := by
  simp only [runsTo, Host.Core.run] at h
  split at h
  · next t ht => exact ⟨t, ht, h⟩
  · cases h
  · cases h

theorem runsTo_add {k m : Nat} {s t u : State} (h : runsTo k s t) (h' : runsTo m t u) : runsTo (k + m) s u := by
  induction k generalizing s with
  | zero =>
    cases h
    rwa [Nat.zero_add]
  | succ k ih =>
    obtain ⟨r, hs, hr⟩ := exists_step_of_runsTo_succ h
    rw [Nat.succ_add]
    exact runsTo_succ hs (ih hr)

/-! ## The host's list and the commands -/

/-- The block as it is, with the events `es` still to come from the host. -/
def State.awaiting (s : State) (es : List HostEvent) : State := { s with pending := es }

theorem awaiting_of_pending {s : State} {es : List HostEvent} (h : s.pending = es) : s.awaiting es = s := by
  rw [← h]
  rfl

theorem raise_awaiting (c : FaultCode) (s : State) (es : List HostEvent) :
    raise c (s.awaiting es) = (raise c s).awaiting es := by
  cases hf : s.status.fault with
  | true => rw [raise_of_fault s c hf, raise_of_fault (s.awaiting es) c hf]
  | false =>
    rw [raise_of_no_fault s c hf, raise_of_no_fault (s.awaiting es) c hf]
    rfl

/-- The host's list is no operand of a command. -/
theorem plan_awaiting (i : Instr) (s : State) (es : List HostEvent) : plan i (s.awaiting es) = plan i s := by
  cases i <;> rfl

/-- No command writes the host's list. -/
theorem update_awaiting_of_plan {i : Instr} {s : State} {f : State → State} (h : plan i s = .ok f) (u : State)
    (es : List HostEvent) : f (u.awaiting es) = (f u).awaiting es := by
  cases i with
  | pack | unpack | tobytes | split | append3 =>
    obtain ⟨b, rfl⟩ := update_of_checkedRead h
    rfl
  | join d x =>
    simp only [plan] at h
    split at h <;> cases h
    rfl
  | csum =>
    obtain ⟨bs, rfl⟩ := update_of_read h
    rfl
  | verify =>
    obtain ⟨c, claim, rfl⟩ := update_of_verify h
    rfl

/-- A command does the same whatever the host has left to do. -/
theorem exec_awaiting {i : Instr} {s t : State} (h : exec i s = .next t) (es : List HostEvent) :
    exec i (s.awaiting es) = .next (t.awaiting es) := by
  rw [exec_eq_plan] at h ⊢
  rw [plan_awaiting]
  cases hp : plan i s with
  | error c =>
    rw [hp] at h
    cases h
    exact congrArg _ (raise_awaiting c s es)
  | ok f =>
    rw [hp] at h
    cases h
    exact congrArg _ (update_awaiting_of_plan hp s es)

section
variable {k : Nat} {s t u : State} {es : List HostEvent}

/-- A run begins with the command that the host writes first. -/
theorem runsTo_command {i : Instr} (e : exec i s = .next t) (hf : s.status.fault = false)
    (hr : runsTo k (t.awaiting es) u) :
    runsTo (k + 1) (s.awaiting (command i :: es)) u := by
  have hstep : step (s.awaiting (command i :: es)) = exec i (s.awaiting es) :=
    (step_writeCmd rfl).trans (hostWriteCmd_ok hf (decode_encode i))
  exact runsTo_succ (hstep.trans (exec_awaiting e es)) hr

theorem runsTo_wr_nidx {v : Word16} (hf : s.status.fault = false) (hv : v.toNat < 32)
    (hr : runsTo k (State.awaiting { s with nidx := v.setWidth 5 } es) u) :
    runsTo (k + 1) (s.awaiting (wr .nidx v :: es)) u := by
  have hstep : step (s.awaiting (wr .nidx v :: es)) = .next (hostWriteReg (addrOf .nidx) v (s.awaiting es)) :=
    step_writeReg (by decide) rfl
  rw [hostWriteReg_valid (s := s.awaiting es) (r := .nidx) hf rfl rfl hv] at hstep
  exact runsTo_succ hstep hr

end

/-! ## The entropy bytes in the buffer -/

/-- The first 32 bytes of a string. -/
def stringBytes (b : BitString) : Vector Byte 32 := tabulate 32 (byteOf b)

theorem bytesToBits_stringBytes {b : BitString} (h : b.length = 256) : bytesToBits (stringBytes b).toList = b := by
  rw [stringBytes, toList_tabulate, bytesToBits_byteOf b 32 (by omega), List.take_of_length_le (by omega)]

/-- The checksum of the 32 bytes of a string (R140). -/
def stringChecksum (b : BitString) : Byte := (Config.sha256_32 (stringBytes b))[0]

/-- The state after TOBYTES, with the entropy string in the store and its bytes in the buffer. -/
def entropyLoaded (f : Nat → Idx) (x : BitVec 3) (s : State) : State :=
  bytesLoaded (entropyString f x) (store (entropyString f x) s)

section
variable (f : Nat → Idx) (x : BitVec 3) (s : State)

theorem buf_entropyLoaded (k : Nat) (hk : k < 32) :
    (entropyLoaded f x s).buf[k] = some (byteOf (entropyString f x) k) :=
  buf_bytesLoaded (m := 32) (by rw [length_entropyString, blen_entropyString]) blen_entropyString k (by omega) hk

theorem entropyWritten_entropyLoaded : (entropyLoaded f x s).entropyWritten := by
  intro k _ hk
  rw [buf_entropyLoaded f x s k hk]
  rfl

theorem bufferChecksum_entropyLoaded : bufferChecksum (entropyLoaded f x s) = stringChecksum (entropyString f x) := by
  have hbytes : (entropyLoaded f x s).entropyBytes = stringBytes (entropyString f x) := by
    refine Vector.ext fun k hk => ?_
    have hb : (entropyLoaded f x s).buf.toList.getD k none = some (byteOf (entropyString f x) k) := by
      rw [List.getD_eq_getElem _ _ (by simp; omega), Vector.getElem_toList, buf_entropyLoaded f x s k hk]
    rw [State.entropyBytes, stringBytes, getElem_tabulate, getElem_tabulate, hb]
    rfl
  rw [bufferChecksum, hbytes, stringChecksum]

theorem exec_csum_entropyLoaded :
    exec .csum (entropyLoaded f x s) =
      .next { entropyLoaded f x s with cs := some (stringChecksum (entropyString f x)) } := by
  rw [exec_eq_plan, plan, readEntropy_written (entropyLoaded f x s) buflen_entropyString
    (entropyWritten_entropyLoaded f x s), ← bufferChecksum_entropyLoaded f x s, ← checksum_entropy]
  rfl

theorem exec_verify_entropyLoaded {c : Byte} (hc : s.claim = some c) :
    exec .verify (entropyLoaded f x s) =
      .next (writeVerdict (stringChecksum (entropyString f x)) c (entropyLoaded f x s)) := by
  have hc' : (entropyLoaded f x s).claim = some c := hc
  rw [exec_eq_plan, plan, readEntropy_written (entropyLoaded f x s) buflen_entropyString
    (entropyWritten_entropyLoaded f x s), ← bufferChecksum_entropyLoaded f x s, ← checksum_entropy, hc']
  rfl

end

/-! ## The two sequences -/

section
variable (s : State)

/-- The state VALIDATE leaves (R145). -/
def validated : State :=
  writeVerdict (stringChecksum (entropyString s.idxVal ((s.idxVal 23).extractLsb' 8 3))) ((s.idxVal 23).setWidth 8)
    (entropyLoaded s.idxVal ((s.idxVal 23).extractLsb' 8 3)
      { s with nidx := 24, claim := some ((s.idxVal 23).setWidth 8) })

/-- The index that CANDIDATE forms from the tail and the checksum of the entropy string (R112). -/
def candidateIndex (x : BitVec 3) : Idx := BitVec.ofNat 11 (joinIndex x (stringChecksum (entropyString s.idxVal x)))

/-- The state CANDIDATE leaves (R112). -/
def candidateLeft (x : BitVec 3) : State :=
  { entropyLoaded s.idxVal x { s with nidx := 23 } with
    cs := some (stringChecksum (entropyString s.idxVal x))
    idx := s.idx.set 23 (some (candidateIndex s x)) }

variable {s} (rest : List HostEvent) (hf : s.status.fault = false)
include hf

theorem runsTo_validate (hw : s.indicesWritten 24) :
    runsTo 5 (s.awaiting (validate ++ rest)) ((validated s).awaiting rest) := by
  refine runsTo_wr_nidx hf (by decide) ?_
  refine runsTo_command (exec_pack_of_ready ⟨Nat.le_refl 24, hw⟩) hf ?_
  refine runsTo_command (exec_split_packed rfl) hf ?_
  refine runsTo_command exec_tobytes_entropyString hf ?_
  exact runsTo_command (exec_verify_entropyLoaded _ _ _ rfl) hf rfl

theorem runsTo_candidate (x : BitVec 3) (hw : s.indicesWritten 23) :
    runsTo 6 (s.awaiting (candidate x ++ rest)) ((candidateLeft s x).awaiting rest) := by
  refine runsTo_wr_nidx hf (by decide) ?_
  refine runsTo_command (exec_pack_of_ready ⟨(by omega : 23 ≤ 24), hw⟩) hf ?_
  refine runsTo_command (exec_append3_packed x rfl) hf ?_
  refine runsTo_command exec_tobytes_entropyString hf ?_
  refine runsTo_command (exec_csum_entropyLoaded _ _ _) hf ?_
  exact runsTo_command (exec_join_of_cs (by decide) rfl) hf rfl

end

/-- MATCH says whether the last index carries the checksum of the entropy string (R145). -/
theorem matched_validated (s : State) :
    (validated s).status.matched = true ↔
      (s.idxVal 23).setWidth 8 = stringChecksum (entropyString s.idxVal ((s.idxVal 23).extractLsb' 8 3)) := by
  rw [validated, writeVerdict, setMatch_matched, matchFlag, beq_iff_eq, eq_comm]

section
variable (s : State) (x : BitVec 3)

theorem toNat_candidateIndex :
    (candidateIndex s x).toNat = x.toNat * 256 + (stringChecksum (entropyString s.idxVal x)).toNat := by
  have := joinIndex_le x (stringChecksum (entropyString s.idxVal x))
  rw [candidateIndex, BitVec.toNat_ofNat, Nat.mod_eq_of_lt (by omega), joinIndex]

theorem topBits_candidateIndex : (candidateIndex s x).extractLsb' 8 3 = x := by
  apply BitVec.eq_of_toNat_eq
  rw [toNat_topBits, toNat_candidateIndex]
  omega

theorem setWidth_candidateIndex : (candidateIndex s x).setWidth 8 = stringChecksum (entropyString s.idxVal x) := by
  apply BitVec.eq_of_toNat_eq
  rw [BitVec.toNat_setWidth, toNat_candidateIndex]
  omega

/-- The index of CANDIDATE validates: it keeps the entropy string and carries its checksum (R112). -/
theorem matched_validated_candidateLeft : (validated (candidateLeft s x)).status.matched = true := by
  have hset : (candidateLeft s x).idx = s.idx.set 23 (some (candidateIndex s x)) := rfl
  rw [matched_validated, idxVal_23_of_set hset, entropyString_of_set hset, topBits_candidateIndex,
    setWidth_candidateIndex]

end

/-- Settles O33: the run of CANDIDATE, then the run of VALIDATE from the index it leaves. -/
theorem everyCandidateValidates : Obligations.EveryCandidateValidates := by
  intro s x rest hw hf hp
  have hcandidate := runsTo_candidate (validate ++ rest) hf x hw
  rw [awaiting_of_pending hp] at hcandidate
  have hvalidate : runsTo 5 ((candidateLeft s x).awaiting (validate ++ rest))
      ((validated (candidateLeft s x)).awaiting rest) :=
    runsTo_validate rest hf (indicesWritten_of_set rfl hw)
  exact ⟨stringBytes (entropyString s.idxVal x), _, _, bytesToBits_stringBytes (length_entropyString _ _), hcandidate,
    rfl, hf, ⟨_, Vector.getElem_set_self .., toNat_candidateIndex s x⟩, runsTo_add hcandidate hvalidate, rfl, hf,
    matched_validated_candidateLeft s x⟩

end Sys2Proof.Machine
end

section
/-! SUPPORT. The ChecksumEngine's two commands and the VALIDATE sequence (spec/42_checksum.md R140 to R146). -/

namespace Sys2Proof.Machine

/-! ## The checksum -/

theorem checksum_toList (v : Vector Byte 32) : checksum v.toList = (Config.sha256_32 v)[0] := by
  rw [checksum, entropyVector_toList]

/-- Field k of the string of bytes has the value of byte k (R12). -/
theorem val_substr_bytesToBits (bs : List Byte) (k : Nat) (h : k < bs.length) :
    val (substr (bytesToBits bs) (8 * k) (8 * k + 7)) = (bs[k]).toNat := by
  rw [substr_byte, ← bin_byteOf _ k (by rw [length_bytesToBits]; omega), byteOf_bytesToBits bs k h,
    val_bin _ _ (bs[k]).isLt]

/-- Settles O34: digest byte 0 is the first field of the digest's string. -/
theorem checksumIsTheFirstDigestByte : Obligations.ChecksumIsTheFirstDigestByte := by
  intro v
  refine ⟨checksum_toList v, ?_⟩
  have hlen : 0 < (Config.sha256_32 v).toList.length := by simp
  rw [checksum_toList, ← Vector.getElem_toList (i := 0) hlen]
  exact (val_substr_bytesToBits _ 0 hlen).symm

/-! ## The entropy bytes as operand -/

theorem getElem_entropyBytes (s : State) (k : Nat) (h : k < 32) : s.entropyBytes[k] = (s.buf[k]).getD 0 := by
  rw [State.entropyBytes, getElem_tabulate, List.getD_eq_getElem _ _ (by simp; omega), Vector.getElem_toList]

/-- BUF32 is not read (R141). -/
theorem bufferChecksum_congr {s u : State} (h : ∀ (k : Nat) (hk : k < 32), s.buf[k] = u.buf[k]) :
    bufferChecksum s = bufferChecksum u := by
  have hbytes : s.entropyBytes = u.entropyBytes := Vector.ext fun k hk => by
    rw [getElem_entropyBytes s k hk, getElem_entropyBytes u k hk, h k hk]
  rw [bufferChecksum, bufferChecksum, hbytes]

section
variable {s : State} {v : Vector Byte 32} (h : ∀ (k : Nat) (hk : k < 32), s.buf[k] = some v[k])
include h

theorem entropyWritten_of_buf : s.entropyWritten := by
  intro k _ hk
  rw [h k hk]
  rfl

theorem bufferChecksum_of_buf : bufferChecksum s = (Config.sha256_32 v)[0] := by
  have hbytes : s.entropyBytes = v := Vector.ext fun k hk => by
    rw [getElem_entropyBytes s k hk, h k hk]
    rfl
  rw [bufferChecksum, hbytes]

end

section
variable {s : State}

theorem exec_csum_of_ready (hr : ready .csum s) :
    exec .csum s = .next { s with cs := some (bufferChecksum s) } := by
  obtain ⟨hl, hw⟩ := hr
  rcases exec_csum_cases s with ⟨hl', -⟩ | ⟨-, hw', -⟩ | ⟨-, e⟩
  · exact absurd hl hl'
  · exact absurd hw hw'
  · exact e

theorem exec_verify_of_ready {c : Byte} (hr : ready .verify s) (hc : s.claim = some c) :
    exec .verify s = .next (writeVerdict (bufferChecksum s) c s) := by
  obtain ⟨hl, hw, -⟩ := hr
  rcases exec_verify_cases s with ⟨hl', -⟩ | ⟨-, hw' | hc', -⟩ | ⟨-, c', hc', e⟩
  · exact absurd hl hl'
  · exact absurd hw hw'
  · cases hc'.symm.trans hc
  · cases hc'.symm.trans hc
    exact e

end

/-! ## CSUM -/

/-- Settles O35: by what CSUM can do, and the checksum of the 32 bytes in the buffer. -/
theorem csumWritesTheChecksum : Obligations.CsumWritesTheChecksum := by
  refine ⟨decode_encode .csum, fun s => ?_⟩
  rcases exec_csum_cases s with ⟨hl, e⟩ | ⟨hl, hw, e⟩ | ⟨⟨hl, hw⟩, e⟩
  · exact ⟨fun _ => e, fun h => absurd h hl, fun _ h => absurd h hl⟩
  · exact ⟨fun h => absurd hl h, fun _ _ => e, fun _ _ h => absurd (entropyWritten_of_buf h) hw⟩
  · refine ⟨fun h => absurd hl h, fun _ h => absurd hw h, fun v _ h => ?_⟩
    rw [e, bufferChecksum_of_buf h]

/-- Settles O36: CS is the checksum of the buffer, which depends on BUF0..BUF31 alone. -/
theorem csumIsDeterministic : Obligations.CsumIsDeterministic := by
  intro s u hs hu hbuf
  refine ⟨_, _, exec_csum_of_ready hs, exec_csum_of_ready hu, rfl, ?_⟩
  rw [bufferChecksum_congr hbuf]

/-! ## VERIFY -/

/-- Settles O37: by what VERIFY can do, and since the other commands' updates keep MATCH. -/
theorem verifyComparesWithTheClaim : Obligations.VerifyComparesWithTheClaim := by
  refine ⟨decode_encode .verify, fun s => ?_⟩
  rcases exec_verify_cases s with ⟨hl, e⟩ | ⟨hl, hw, e⟩ | ⟨hr, c, hc, e⟩
  · exact ⟨fun _ => e, fun h => absurd h hl, fun _ _ h => absurd h hl, fun _ _ => exec_matched⟩
  · refine ⟨fun h => absurd hl h, fun _ _ => e, fun v c _ h hc => ?_, fun _ _ => exec_matched⟩
    rcases hw with hw | hc'
    · exact absurd (entropyWritten_of_buf h) hw
    · cases hc'.symm.trans hc
  · obtain ⟨hl, hw, -⟩ := hr
    refine ⟨fun h => absurd hl h, fun _ h => ?_, fun v c' _ h hc' => ?_, fun _ _ => exec_matched⟩
    · rcases h with hw' | hc'
      · exact absurd hw hw'
      · cases hc'.symm.trans hc
    · cases hc'.symm.trans hc
      rw [bufferChecksum_of_buf h] at e
      exact ⟨_, e, rfl, beq_iff_eq, rfl, rfl, rfl⟩

/-- Settles O38: CS is the checksum of the buffer and MATCH compares it with CLAIM. -/
theorem verifyIsDeterministic : Obligations.VerifyIsDeterministic := by
  intro s u hs hu hbuf hclaim
  have ⟨_, _, hwritten⟩ := hs
  obtain ⟨c, hc⟩ := Option.isSome_iff_exists.mp hwritten
  have hverify := exec_verify_of_ready hs hc
  rw [bufferChecksum_congr hbuf] at hverify
  exact ⟨_, _, hverify, exec_verify_of_ready hu (hclaim.symm.trans hc), rfl, rfl, rfl⟩

/-! ## VALIDATE -/

/-- The entropy string is the first 256 bits of 24 packed indices (R102). -/
theorem take_packIndices_range_24 (f : Nat → Idx) :
    (packIndices ((List.range 24).map f)).take 256 = entropyString f ((f 23).extractLsb' 8 3) := by
  rw [packIndices_range_24, List.take_left' (length_entropyString _ _)]

/-- Settles O39: the run of VALIDATE, and the bytes of the entropy string. -/
theorem validateComparesClaimAndChecksum : Obligations.ValidateComparesClaimAndChecksum := by
  intro s rest hw hf hp
  have hrun := runsTo_validate rest hf hw
  rw [awaiting_of_pending hp] at hrun
  refine ⟨stringBytes (entropyString s.idxVal ((s.idxVal 23).extractLsb' 8 3)), _, ?_, hrun, rfl, hf, rfl, rfl,
    matched_validated s⟩
  rw [bytesToBits_stringBytes (length_entropyString _ _), take_packIndices_range_24]

theorem runsTo_unique {k : Nat} {s t u : State} (ht : runsTo k s t) (hu : runsTo k s u) : t = u :=
  Host.Outcome.next.inj (ht.symm.trans hu)

/-- `s` with `v` in IDX23. -/
def State.withLast (s : State) (v : Idx) : State := { s with idx := s.idx.set 23 (some v) }

/-- An index is the candidate of its own tail exactly when it carries that tail's checksum. -/
theorem eq_candidateIndex_iff (s : State) (v : Idx) :
    v = candidateIndex s (v.extractLsb' 8 3) ↔
      v.setWidth 8 = stringChecksum (entropyString s.idxVal (v.extractLsb' 8 3)) := by
  rw [← BitVec.toNat_inj, ← BitVec.toNat_inj, toNat_candidateIndex, toNat_topBits, BitVec.toNat_setWidth]
  have := (stringChecksum (entropyString s.idxVal (v.extractLsb' 8 3))).isLt
  omega

theorem natCard_bitVec (w : Nat) : Nat.card (BitVec w) = 2 ^ w :=
  (Nat.card_congr BitVec.equivFin.toEquiv).trans (Nat.card_fin _)

section
variable {s : State} (hw : s.indicesWritten 23) (hf : s.status.fault = false)
include hw hf

theorem validates_iff_matched (v : Idx) : validates s v ↔ (validated (s.withLast v)).status.matched = true := by
  have hrun : runsTo 5 ((s.withLast v).awaiting validate) ((validated (s.withLast v)).awaiting []) :=
    runsTo_validate [] hf (indicesWritten_of_set rfl hw)
  constructor
  · rintro ⟨u, hu, -, hm⟩
    rwa [runsTo_unique hu hrun] at hm
  · exact fun hm => ⟨_, hrun, ⟨rfl, hf⟩, hm⟩

/-- The final indices that validate are the candidates of their own tails (R146). -/
theorem validates_iff (v : Idx) : validates s v ↔ v = candidateIndex s (v.extractLsb' 8 3) := by
  have hset : (s.withLast v).idx = s.idx.set 23 (some v) := rfl
  rw [validates_iff_matched hw hf, matched_validated, idxVal_23_of_set hset, entropyString_of_set hset,
    eq_candidateIndex_iff]

theorem setOf_validates : {v : Idx | validates s v} = Set.range (candidateIndex s) := by
  ext v
  rw [Set.mem_ofPred_eq, validates_iff hw hf]
  constructor
  · exact fun h => ⟨_, h.symm⟩
  · rintro ⟨x, rfl⟩
    rw [topBits_candidateIndex]

/-- The tails keep their candidates apart, so there are as many of these as of those. -/
theorem ncard_validates : {v : Idx | validates s v}.ncard = 8 := by
  have hinj : Function.Injective (candidateIndex s) := Function.LeftInverse.injective (topBits_candidateIndex s)
  rw [setOf_validates hw hf, Set.ncard_range_of_injective hinj, natCard_bitVec]
  rfl

theorem ncard_not_validates : {v : Idx | ¬ validates s v}.ncard = 2040 := by
  have htotal := Set.ncard_add_ncard_compl {v : Idx | validates s v}
  rw [ncard_validates hw hf, Set.compl_ofPred, natCard_bitVec] at htotal
  omega

end

/-- Settles O40: the indices that validate are the candidates, one for each of the eight tails. -/
theorem eightFinalIndicesValidate : Obligations.EightFinalIndicesValidate := by
  refine fun s hw hf => ⟨fun x => ⟨stringBytes (entropyString s.idxVal x),
    bytesToBits_stringBytes (length_entropyString _ _), ?_⟩, ncard_validates hw hf, ncard_not_validates hw hf⟩
  rintro last rfl
  rw [validates_iff hw hf, ← BitVec.toNat_inj, toNat_candidateIndex]
  rfl

end Sys2Proof.Machine
end

section
/-! SUPPORT. The statements about faults (spec/60_exceptions.md R163 to R165): a step that raises a fault is the fault
entry and nothing more, a faulted block ignores writes, and a command's checks come in their order. -/

namespace Sys2Proof.Machine

/-! ## Faults are precise -/

/-- `t` is `s` after the fault entry of R163, with a fault recorded, but for the host's own list of answers. -/
def Faulted (s t : State) : Prop :=
  ∃ (c : FaultCode) (rs : List (Option Word16)), c ≠ .none ∧
    t = { s with status := { s.status with fault := true, fcode := c }, reads := rs }

section
variable {s t : State} (hf : s.status.fault = false)
include hf

theorem faulted_raise {c : FaultCode} (hc : c ≠ .none) : Faulted s (raise c s) :=
  ⟨c, s.reads, hc, raise_of_no_fault s c hf⟩

/-- A read raises a fault at a reserved address only (R52). -/
theorem faulted_hostRead {a : Addr} (ht : (hostRead a s).status.fault = true) : Faulted s (hostRead a s) := by
  cases ha : regAt a with
  | none =>
    rw [hostRead_reserved ha, raise_of_no_fault s _ hf]
    exact ⟨.eHostAddr, none :: s.reads, by decide, rfl⟩
  | some r =>
    rw [hostRead_register ha] at ht
    exact absurd ht (by simp [hf])

/-- A command that faults has made none of its writes (R13, R163). -/
theorem faulted_exec {i : Instr} (h : exec i s = .next t) (ht : t.status.fault = true) : Faulted s t := by
  rcases exec_outcome i s with ⟨c, hc, e⟩ | ⟨-, u, e, hu, -, -, -⟩
  · cases e.symm.trans h
    exact faulted_raise hf hc
  · cases e.symm.trans h
    exact absurd ht (by simp [hu, hf])

theorem faulted_hostEvent {e : HostEvent} (h : hostEvent e s = .next t) (ht : t.status.fault = true) :
    Faulted s t := by
  rcases hostEvent_cases e s with
    ⟨a, -, hn⟩ | ⟨-, hn⟩ | ⟨a, v, -, ⟨hf', -⟩ | ⟨-, ⟨c, hc, hn⟩ | ⟨-, r, -, -, -, hn⟩ | ⟨-, i, -, hn⟩⟩⟩
  · cases hn.symm.trans h
    exact faulted_hostRead hf ht
  · cases hn.symm.trans h
    exact nomatch ht
  · exact absurd hf' (by simp [hf])
  · cases hn.symm.trans h
    exact faulted_raise hf hc
  · cases hn.symm.trans h
    exact absurd ht (by simp [writeReg_status, hf])
  · exact faulted_exec hf (hn.symm.trans h) ht

/-- A step that ends in a new fault takes the host's event off its list, and is the fault entry (R163). -/
theorem faulted_step (h : step s = .next t) (ht : t.status.fault = true) :
    Faulted { s with pending := s.pending.tail } t := by
  cases hp : s.pending with
  | nil =>
    cases (step_idle s hp).symm.trans h
    exact absurd ht (by simp [hf])
  | cons e rest => exact faulted_hostEvent hf ((step_of_pending s e rest hp).symm.trans h) ht

end

/-- Settles O41: a step that ends in a new fault writes FAULT and FCODE and no other field of the block. -/
theorem faultsArePrecise : Obligations.FaultsArePrecise := by
  refine ⟨fun c s => raise_of_no_fault s c, fun c s => raise_of_fault s c, fun s t hf h ht => ?_⟩
  obtain ⟨c, rs, hc, rfl⟩ := faulted_step hf h ht
  exact ⟨⟨rfl, rfl, rfl, rfl, rfl, rfl, rfl, rfl⟩, rfl, hc, rfl⟩

/-! ## A faulted block -/

section
variable {s : State} {a : Addr} {rest : List HostEvent} (hf : s.status.fault = true)
include hf

theorem step_write_faulted {v : Word16} (hp : s.pending = .write a v :: rest) :
    step s = .next { s with pending := rest } := by
  by_cases ha : a = cmdAddr
  · subst ha
    exact (step_writeCmd hp).trans (hostWriteCmd_faulted hf)
  · exact (step_writeReg ha hp).trans (congrArg _ (hostWriteReg_faulted hf))

/-- The fault of a read at a reserved address is dropped too (R164). -/
theorem hostRead_faulted (a : Addr) : hostRead a s = { s with reads := readResult a s :: s.reads } := by
  cases ha : regAt a with
  | none => simp [hostRead, ha, raise_of_fault s _ hf]
  | some r => simp [hostRead, ha]

theorem step_read_faulted (hp : s.pending = .read a :: rest) :
    step s = .next { s with pending := rest, reads := readResult a s :: s.reads } :=
  (step_read hp).trans (congrArg _ (hostRead_faulted (s := { s with pending := rest }) hf a))

end

/-- Settles O42: by the rules of each access to a faulted block. -/
theorem faultedBlockIgnoresWrites : Obligations.FaultedBlockIgnoresWrites := by
  refine fun s hf => ⟨fun a v rest => step_write_faulted hf, fun a rest => step_read_faulted hf, ?_⟩
  cases hp : s.pending with
  | nil => exact ⟨s, step_idle s hp⟩
  | cons e rest =>
    cases e with
    | read a => exact ⟨_, step_read_faulted hf hp⟩
    | write a v => exact ⟨_, step_write_faulted hf hp⟩
    | reset => exact ⟨resetBlock { s with pending := rest }, step_of_pending s _ rest hp⟩

/-! ## The order of a command's checks -/

theorem exec_of_plan_error {i : Instr} {s : State} {c : FaultCode} (h : plan i s = .error c) :
    exec i s = .next (raise c s) := by
  rw [exec_eq_plan, h]
  rfl

section
variable {d : BitVec 5} {x : BitVec 3} {s : State}

/-- A D that names no register is refused, CS written or not (R111). -/
theorem exec_join_eRange (hd : 23 < d.toNat) : exec (.join d x) s = .next (raise .eRange s) := by
  rcases exec_join_cases d x s with ⟨-, e⟩ | ⟨hlt, -⟩ | ⟨hlt, -⟩
  · exact e
  · omega
  · omega

/-- Where D names a register, the one fault of JOIN is an unwritten CS (R111). -/
theorem exec_join_fcode {t : State} (hd : d.toNat ≤ 23) (hf : s.status.fault = false)
    (h : exec (.join d x) s = .next t) (ht : t.status.fault = true) : t.status.fcode = .eUninit := by
  rcases exec_join_cases d x s with ⟨hge, -⟩ | ⟨-, -, e⟩ | ⟨hlt, c, -, e⟩
  · omega
  · cases e.symm.trans h
    simp [hf]
  · cases e.symm.trans h
    exact absurd ht (by simp [hf])

end

/-- Settles O43: by what each word decodes to, by the cases of JOIN, and since the length check heads every plan that
has one. -/
theorem checksComeInTheirOrder : Obligations.ChecksComeInTheirOrder := by
  refine ⟨fun w => decode_of_reservedOpcode, fun w => decode_of_fieldFault, fun d x s => exec_join_eRange,
    fun d x s t => exec_join_fcode, fun i s h => ?_⟩
  rcases h with ⟨rfl, h⟩ | ⟨rfl, h⟩ | ⟨rfl, h⟩ | ⟨rfl, h⟩ | ⟨⟨x, rfl⟩, h⟩ | ⟨rfl | rfl, h⟩
  · exact exec_of_plan_error (if_pos h)
  · exact exec_of_plan_error (if_pos h)
  · exact exec_of_plan_error (if_pos h)
  · exact exec_split_eLength h
  · exact exec_append3_eLength h
  · exact exec_of_plan_error (by rw [plan, readEntropy_length s h]; rfl)
  · exact exec_of_plan_error (by rw [plan, readEntropy_length s h]; rfl)

end Sys2Proof.Machine
end

section
/-! SUPPORT. Reset and hazards (spec/70_reset_and_hazards.md R190, R192): what is written stays written until a reset,
and a command whose operands are in place is one that completes. -/

namespace Sys2Proof.Machine

/-! ## Written elements -/

theorem keepsWritten_refl (s : State) : keepsWritten s s :=
  ⟨fun _ _ h => h, fun _ _ h => h, fun _ _ h => h, id, id⟩

theorem keepsWritten_raise (c : FaultCode) (s : State) : keepsWritten s (raise c s) := by
  simp [keepsWritten]

theorem keepsWritten_hostRead (a : Addr) (s : State) : keepsWritten s (hostRead a s) := by
  cases ha : regAt a with
  | none => rw [hostRead_reserved ha]; exact keepsWritten_raise .eHostAddr s
  | some r => rw [hostRead_register ha]; exact keepsWritten_refl s

/-- Writing one element of a register file leaves no element unwritten that was written (R53). -/
theorem isSome_getElem_set {α : Type} {n : Nat} (f : Vector (Option α) n) (i k : Nat) (hi : i < n) (hk : k < n) (x : α)
    (h : f[k].isSome = true) : (f.set i (some x))[k].isSome = true := by
  by_cases hik : i = k
  · subst hik
    simp
  · rwa [Vector.getElem_set_ne _ _ hik]

theorem keepsWritten_writeReg (r : Reg) (v : Word16) (s : State) : keepsWritten s (writeReg r v s) := by
  cases r with
  | idx i => exact ⟨fun k hk => isSome_getElem_set s.idx i k i.isLt hk _, fun _ _ h => h, fun _ _ h => h, id, id⟩
  | bitb i => exact ⟨fun _ _ h => h, fun k hk => isSome_getElem_set s.bitb i k i.isLt hk _, fun _ _ h => h, id, id⟩
  | buf i => exact ⟨fun _ _ h => h, fun _ _ h => h, fun k hk => isSome_getElem_set s.buf i k i.isLt hk _, id, id⟩
  | claim => exact ⟨fun _ _ h => h, fun _ _ h => h, fun _ _ h => h, id, fun _ => rfl⟩
  | nidx | blen | buflen | cs | status | cmd => exact keepsWritten_refl s

/-- A store writes all 33 bytes of the store (R100). -/
theorem keepsWritten_store (b : BitString) (s : State) : keepsWritten s (store b s) :=
  ⟨fun _ _ h => h, fun k hk _ => store_written b s k hk, fun _ _ h => h, id, id⟩

/-- SPLIT writes CLAIM and the whole store (R107). -/
theorem keepsWritten_splitInto (b : BitString) (s : State) : keepsWritten s (splitInto b s) :=
  ⟨fun _ _ h => h, fun k hk _ => store_written _ _ k hk, fun _ _ h => h, id, fun _ => rfl⟩

/-- UNPACK writes the first IDX registers and leaves the others (R103). -/
theorem keepsWritten_writeIndices (n : Nat) (b : BitString) (s : State) : keepsWritten s (writeIndices n b s) := by
  refine ⟨fun i hi h => ?_, fun _ _ h => h, fun _ _ h => h, id, id⟩
  by_cases hin : i < n
  · simp [writeIndices, hin]
  · simpa [writeIndices, hin, hi] using h

/-- TOBYTES writes all 33 bytes of the buffer (R105). -/
theorem keepsWritten_writeBytes (n : Nat) (b : BitString) (s : State) : keepsWritten s (writeBytes n b s) :=
  ⟨fun _ _ h => h, fun _ _ h => h, fun _ _ _ => by simp [writeBytes], id, id⟩

/-- CS becomes written, and MATCH is no data element (R32, R141, R143). -/
theorem keepsWritten_cs (c : Byte) (s : State) : keepsWritten s { s with cs := some c } :=
  ⟨fun _ _ h => h, fun _ _ h => h, fun _ _ h => h, fun _ => rfl, id⟩

/-- The update that a command makes writes elements and unwrites none. -/
theorem keepsWritten_of_plan {i : Instr} {s : State} {f : State → State} (h : plan i s = .ok f) :
    keepsWritten s (f s) := by
  cases i with
  | pack =>
    obtain ⟨xs, rfl⟩ := update_of_checkedRead h
    exact keepsWritten_store _ s
  | unpack =>
    obtain ⟨b, rfl⟩ := update_of_checkedRead h
    exact keepsWritten_writeIndices _ b s
  | tobytes =>
    obtain ⟨b, rfl⟩ := update_of_checkedRead h
    exact keepsWritten_writeBytes _ b s
  | split =>
    obtain ⟨b, rfl⟩ := update_of_checkedRead h
    exact keepsWritten_splitInto b s
  | append3 x =>
    obtain ⟨b, rfl⟩ := update_of_checkedRead h
    exact keepsWritten_store _ s
  | join d x =>
    simp only [plan] at h
    split at h <;> cases h
    next k c hd hc =>
      exact ⟨fun j hj => isSome_getElem_set s.idx k j k.isLt hj _, fun _ _ h => h, fun _ _ h => h, id, id⟩
  | csum =>
    obtain ⟨bs, rfl⟩ := update_of_read h
    exact keepsWritten_cs _ s
  | verify =>
    obtain ⟨c, claim, rfl⟩ := update_of_verify h
    exact keepsWritten_cs c s

theorem keepsWritten_exec {i : Instr} {s t : State} (h : exec i s = .next t) : keepsWritten s t := by
  rw [exec_eq_plan] at h
  cases hp : plan i s with
  | error c =>
    rw [hp] at h
    cases h
    exact keepsWritten_raise c s
  | ok f =>
    rw [hp] at h
    cases h
    exact keepsWritten_of_plan hp

theorem keepsWritten_hostEvent {e : HostEvent} {s t : State} (he : e ≠ .reset) (h : hostEvent e s = .next t) :
    keepsWritten s t := by
  rcases hostEvent_cases e s with
    ⟨a, -, hn⟩ | ⟨hr, -⟩ | ⟨a, v, -, ⟨-, hn⟩ | ⟨-, ⟨c, -, hn⟩ | ⟨-, r, -, -, -, hn⟩ | ⟨-, i, -, hn⟩⟩⟩
  · cases hn.symm.trans h
    exact keepsWritten_hostRead a s
  · exact absurd hr he
  · cases hn.symm.trans h
    exact keepsWritten_refl s
  · cases hn.symm.trans h
    exact keepsWritten_raise c s
  · cases hn.symm.trans h
    exact keepsWritten_writeReg r v s
  · exact keepsWritten_exec (hn.symm.trans h)

/-- Only reset makes a data element unwritten (R190). -/
theorem keepsWritten_step {s t : State} (h : step s = .next t) (hr : s.pending.head? ≠ some .reset) :
    keepsWritten s t := by
  cases hp : s.pending with
  | nil =>
    cases (step_idle s hp).symm.trans h
    exact keepsWritten_refl s
  | cons e rest =>
    have he : e ≠ .reset := by
      rintro rfl
      exact hr (congrArg List.head? hp)
    exact keepsWritten_hostEvent (s := { s with pending := rest }) he ((step_of_pending s e rest hp).symm.trans h)

/-- Settles O45: by what each event does to the written marks, and since FAULT is written by the fault entry alone. -/
theorem onlyResetUnwritesOrClearsFault : Obligations.OnlyResetUnwritesOrClearsFault := by
  refine ⟨fun s rest hp => ⟨resetBlock { s with pending := rest }, step_of_pending s _ rest hp,
    ⟨rfl, rfl, rfl, rfl, rfl, rfl, rfl, rfl⟩, rfl, rfl⟩, fun s t h hr => ⟨keepsWritten_step h hr, fun hf => ?_⟩⟩
  rcases faultWrittenOnlyByFaultEntry s t h hr with ⟨hfault, -⟩ | ⟨hf', -⟩
  · exact hfault.trans hf
  · exact absurd hf (by simp [hf'])

/-! ## Operands in place -/

/-- A well-formed command completes with its operands in place, and else faults E_LENGTH or E_UNINIT (R192). -/
theorem exec_of_wellFormed {i : Instr} (s : State) (hi : i.wellFormed = true) :
    (ready i s ∧ ∃ t, exec i s = .next t ∧ t.status.fault = s.status.fault) ∨
    (¬ ready i s ∧ ∃ c, (c = .eLength ∨ c = .eUninit) ∧ exec i s = .next (raise c s)) := by
  cases i with
  | pack =>
    rcases exec_pack_cases s with ⟨hl, e⟩ | ⟨-, hw, e⟩ | ⟨hr, e⟩
    · exact .inr ⟨fun ⟨h, _⟩ => absurd hl (Nat.not_lt.mpr h), _, .inl rfl, e⟩
    · exact .inr ⟨fun ⟨_, h⟩ => hw h, _, .inr rfl, e⟩
    · exact .inl ⟨hr, _, e, rfl⟩
  | unpack =>
    rcases exec_unpack_cases s with ⟨hl, e⟩ | ⟨-, -, hw, e⟩ | ⟨hr, b, -, e⟩
    · exact .inr ⟨fun ⟨h, h11, _⟩ => by omega, _, .inl rfl, e⟩
    · exact .inr ⟨fun ⟨_, _, h⟩ => hw h, _, .inr rfl, e⟩
    · exact .inl ⟨hr, _, e, rfl⟩
  | tobytes =>
    rcases exec_tobytes_cases s with ⟨hl, e⟩ | ⟨-, hw, e⟩ | ⟨hr, b, -, e⟩
    · exact .inr ⟨fun ⟨h, _⟩ => absurd hl (Nat.not_lt.mpr h), _, .inl rfl, e⟩
    · exact .inr ⟨fun ⟨_, h⟩ => hw h, _, .inr rfl, e⟩
    · exact .inl ⟨hr, _, e, rfl⟩
  | split =>
    rcases exec_split_cases s with ⟨hl, e⟩ | ⟨-, hw, e⟩ | ⟨hr, b, -, e⟩
    · exact .inr ⟨fun ⟨h, _⟩ => hl h, _, .inl rfl, e⟩
    · exact .inr ⟨fun ⟨_, h⟩ => hw h, _, .inr rfl, e⟩
    · exact .inl ⟨hr, _, e, rfl⟩
  | append3 x =>
    rcases exec_append3_cases x s with ⟨hl, e⟩ | ⟨-, hw, e⟩ | ⟨hr, b, -, e⟩
    · exact .inr ⟨fun ⟨h, _⟩ => hl h, _, .inl rfl, e⟩
    · exact .inr ⟨fun ⟨_, h⟩ => hw h, _, .inr rfl, e⟩
    · exact .inl ⟨hr, _, e, rfl⟩
  | join d x =>
    have hlt : d.toNat < 24 := of_decide_eq_true hi
    rcases exec_join_cases d x s with ⟨hd, -⟩ | ⟨-, hc, e⟩ | ⟨hd, c, hc, e⟩
    · exact absurd hlt (Nat.not_lt.mpr hd)
    · exact .inr ⟨fun ⟨_, h⟩ => by simp [hc] at h, _, .inr rfl, e⟩
    · exact .inl ⟨⟨hd, by simp [hc]⟩, _, e, rfl⟩
  | csum =>
    rcases exec_csum_cases s with ⟨hl, e⟩ | ⟨-, hw, e⟩ | ⟨hr, e⟩
    · exact .inr ⟨fun ⟨h, _⟩ => hl h, _, .inl rfl, e⟩
    · exact .inr ⟨fun ⟨_, h⟩ => hw h, _, .inr rfl, e⟩
    · exact .inl ⟨hr, _, e, rfl⟩
  | verify =>
    rcases exec_verify_cases s with ⟨hl, e⟩ | ⟨-, hw, e⟩ | ⟨hr, c, -, e⟩
    · exact .inr ⟨fun ⟨h, _⟩ => hl h, _, .inl rfl, e⟩
    · refine .inr ⟨fun ⟨_, h, hc⟩ => ?_, _, .inr rfl, e⟩
      rcases hw with hw | hn
      · exact hw h
      · simp [hn] at hc
    · exact .inl ⟨hr, _, e, rfl⟩

/-- Settles O46: a well-formed command completes exactly when its operands are in place. -/
theorem commandsRunExactlyWhenReady : Obligations.CommandsRunExactlyWhenReady := by
  intro i s hi hf
  rcases exec_of_wellFormed s hi with ⟨hr, t, e, ht⟩ | ⟨hn, c, hc, e⟩
  · exact ⟨fun _ => ⟨t, e, ht.trans hf⟩, fun hn => absurd hr hn⟩
  · exact ⟨fun hr => absurd hr hn, fun _ => ⟨_, e, raise_fault s c, by simpa [hf] using hc⟩⟩

end Sys2Proof.Machine
end

section
/-! SUPPORT. The status invariant: FCODE is 0 exactly when FAULT = 0, and MATCH = 1 only with CS written
(spec/10_state.md section 6, spec/42_checksum.md R143, log entry 13). -/

namespace Sys2Proof.Machine

/-- Settles O9: the reset STATUS holds no fault and MATCH = 0. -/
theorem resetMeetsTheStatusInvariant : Obligations.ResetMeetsTheStatusInvariant :=
  ⟨iff_of_true rfl rfl, nofun⟩

/-- The reset signal clears STATUS (R190). -/
theorem inv_resetBlock (s : State) : (resetBlock s).Inv :=
  resetMeetsTheStatusInvariant

section
variable {s t : State} (hs : s.Inv) (hcs : s.cs.isSome = true → t.cs.isSome = true)
include hs hcs

theorem inv_of_status_eq (h : t.status = s.status) : t.Inv := by
  obtain ⟨hfault, hmatch⟩ := hs
  exact ⟨by rwa [h], fun hm => hcs (hmatch (by rwa [← h]))⟩

/-- The fault entry sets FAULT with a real code, and leaves MATCH (R163). -/
theorem inv_of_faultEntry (h : FaultEntry s.status t.status) : t.Inv := by
  obtain ⟨-, hmatch⟩ := hs
  obtain ⟨-, c, hc, ht⟩ := h
  refine ⟨?_, fun hm => hcs (hmatch ?_)⟩
  · rw [ht]
    exact iff_of_false nofun hc
  · rwa [ht] at hm

end

/-- A VERIFY that does not fault writes CS (R143). -/
theorem cs_of_exec_verify {s t : State} (h : exec .verify s = .next t) (ht : t.status.fault = false) :
    t.cs.isSome = true := by
  rcases exec_verify_cases s with ⟨-, e⟩ | ⟨-, -, e⟩ | ⟨-, c, -, e⟩
  · cases e.symm.trans h
    simp at ht
  · cases e.symm.trans h
    simp at ht
  · cases e.symm.trans h
    rfl

theorem cs_of_step_verify {s t : State} {rest : List HostEvent} (h : step s = .next t)
    (hp : s.pending = .write cmdAddr (encode .verify) :: rest) (hf : s.status.fault = false)
    (ht : t.status.fault = false) : t.cs.isSome = true := by
  have hexec : step s = exec .verify { s with pending := rest } :=
    (step_writeCmd hp).trans (hostWriteCmd_ok hf (decode_encode .verify))
  exact cs_of_exec_verify (hexec.symm.trans h) ht

/-- Settles O8: by what a step does to STATUS, since CS stays written but for a reset, and a VERIFY writes it. -/
theorem everyStepKeepsTheStatusInvariant : Obligations.EveryStepKeepsTheStatusInvariant := by
  intro s t hs h
  by_cases hr : s.pending.head? = some .reset
  · obtain ⟨rest, hp⟩ := List.head?_eq_some_iff.mp hr
    cases (step_of_pending s _ rest hp).symm.trans h
    exact inv_resetBlock _
  · obtain ⟨-, -, -, hcs, -⟩ := keepsWritten_step h hr
    rcases step_status h with ⟨rest, hp⟩ | he | he | ⟨rest, hp, hf, hfault, hfcode⟩
    · exact absurd (congrArg List.head? hp) hr
    · exact inv_of_status_eq hs hcs he
    · exact inv_of_faultEntry hs hcs he
    · obtain ⟨hcode, -⟩ := hs
      exact ⟨by rwa [hfault, hfcode], fun _ => cs_of_step_verify h hp hf (hfault.trans hf)⟩

end Sys2Proof.Machine
end

section
/-! SUPPORT. Words and commands, values and strings: each determines the other (spec/00_scope.md R11, R12,
spec/30_encoding.md R70 to R76). -/

namespace Sys2Proof.Machine

/-- Settles O17: a decoded word has its command's fields, and the encoder's word decodes. -/
theorem decodeInvertsEncode : Obligations.DecodeInvertsEncode := by
  refine fun w i => ⟨encode_of_decode, ?_⟩
  rintro rfl
  exact decode_encode i

/-- Settles O20: the commands' words are the encoder's, and the others fault by their fields. -/
theorem sampleWordsDecode : Obligations.SampleWordsDecode :=
  ⟨decode_encode .pack, decode_encode .unpack, decode_encode .tobytes, decode_encode .split,
    decode_encode (.append3 7), decode_encode (.join 23 7), decode_encode (.join 24 7), decode_encode .csum,
    decode_encode .verify,
    decode_of_reservedOpcode (by decide), decode_of_reservedOpcode (by decide), decode_of_reservedOpcode (by decide),
    decode_of_reservedOpcode (by decide),
    decode_of_fieldFault (by decide) (by decide) (by decide) (by decide),
    decode_of_fieldFault (by decide) (by decide) (by decide) (by decide),
    decode_of_fieldFault (by decide) (by decide) (by decide) (by decide),
    decode_of_fieldFault (by decide) (by decide) (by decide) (by decide),
    decode_of_fieldFault (by decide) (by decide) (by decide) (by decide)⟩

/-- The bytes of the string of bytes (R12). -/
theorem toBytes_bytesToBits (bs : List Byte) : toBytes (bytesToBits bs) = bs := by
  have hlen : (toBytes (bytesToBits bs)).length = bs.length := by simp [toBytes]
  refine List.ext_getElem hlen fun k _ hk => ?_
  simp only [toBytes, List.getElem_map, List.getElem_range]
  exact byteOf_bytesToBits bs k hk

/-- The string of the bytes of a string of whole bytes (R12). -/
theorem bytesToBits_toBytes {s : BitString} (h : s.length % 8 = 0) : bytesToBits (toBytes s) = s := by
  rw [toBytes, bytesToBits_byteOf s _ (by omega), List.take_of_length_le (by omega)]

/-- Settles O1: the laws of bit strings. -/
theorem stringsAndValuesAreInverse : Obligations.StringsAndValuesAreInverse :=
  ⟨fun w v h => ⟨length_bin w v, val_bin w v h⟩, bin_val, toBytes_bytesToBits, fun _ => bytesToBits_toBytes⟩

end Sys2Proof.Machine
end

section
/-! SUPPORT. The STATUS word, a placed word, and that a step always answers a next state (spec/10_state.md R34,
spec/20_memory.md R53, R54, spec/60_exceptions.md R161, R164). -/

namespace Sys2Proof.Machine

/-! ## The STATUS word -/

/-- A field of the STATUS word from bit 2 on, read without the two flags below it. -/
theorem extractLsb'_word (st : Status) (start len : Nat) (h : 2 ≤ start) :
    st.word.extractLsb' start len = (0#8 ++ st.fcode.code ++ 0#2).extractLsb' (start - 2) len := by
  rw [Status.word, BitVec.extractLsb'_append_eq_of_le (by omega), BitVec.extractLsb'_append_eq_of_le (by omega),
    Nat.sub_sub]

theorem getLsbD_one_word (st : Status) : st.word.getLsbD 1 = st.fault := by
  rw [Status.word, BitVec.getLsbD_append, BitVec.getLsbD_append]
  simp

theorem fcode_word (st : Status) : st.word.extractLsb' 4 4 = st.fcode.code := by
  rw [extractLsb'_word st 4 4 (by decide), BitVec.extractLsb'_append_eq_of_le (by decide)]
  exact BitVec.extractLsb'_append_eq_right

/-- The hard-wired zeros of STATUS (R34). -/
theorem reserved_word (st : Status) : st.word.extractLsb' 2 2 = 0 ∧ st.word.extractLsb' 8 8 = 0 := by
  rw [extractLsb'_word st 2 2 (by decide), extractLsb'_word st 8 8 (by decide)]
  refine ⟨BitVec.extractLsb'_append_eq_right, ?_⟩
  rw [BitVec.extractLsb'_append_eq_of_le (by decide)]
  exact BitVec.extractLsb'_append_eq_left

/-- Settles O3: by the fields of the STATUS word; STATUS refuses a host write. -/
theorem statusWordHasItsFields : Obligations.StatusWordHasItsFields := by
  refine ⟨fun st => ?_, fun s hs hf => ?_, rfl, fun _ => rfl, fun s v rest hp _ => ?_,
    rfl, rfl, rfl, rfl, rfl, rfl, rfl, rfl⟩
  · obtain ⟨hlow, hhigh⟩ := reserved_word st
    exact ⟨getLsbD_zero_word st, getLsbD_one_word st, hlow, fcode_word st, hhigh⟩
  · obtain ⟨hcode, -⟩ := hs
    rw [fcode_word, hcode.mp hf]
    rfl
  · rw [step_writeReg (by decide) hp, hostWriteReg_readOnly (r := .status) rfl rfl]

/-! ## Placing a word -/

theorem ofNat_toNat_mod (w : Word16) : BitVec.ofNat 16 (w.toNat % 2 ^ 16) = w := by
  rw [Nat.mod_eq_of_lt w.isLt, BitVec.ofNat_toNat, BitVec.setWidth_eq]

/-- Settles O13: the placed word is the next command write. -/
theorem placedWordIsRunNext : Obligations.PlacedWordIsRunNext := by
  intro s w i hf hd
  have hp : (s.withFetchWord 16 w.toNat).pending = .write cmdAddr w :: s.pending := by
    rw [State.withFetchWord, cmdWrite, ofNat_toNat_mod]
  refine ⟨(step_writeCmd hp).trans (hostWriteCmd_ok hf hd), ?_⟩
  rw [decodeTableWord, ofNat_toNat_mod, hd]

/-! ## Every step completes -/

theorem exists_exec (i : Instr) (s : State) : ∃ t, exec i s = .next t := by
  rcases exec_outcome i s with ⟨c, -, e⟩ | ⟨-, t, e, -⟩
  · exact ⟨_, e⟩
  · exact ⟨t, e⟩

theorem exists_hostEvent (e : HostEvent) (s : State) : ∃ t, hostEvent e s = .next t := by
  rcases hostEvent_cases e s with
    ⟨a, -, h⟩ | ⟨-, h⟩ | ⟨a, v, -, ⟨-, h⟩ | ⟨-, ⟨c, -, h⟩ | ⟨-, r, -, -, -, h⟩ | ⟨-, i, -, h⟩⟩⟩
  · exact ⟨_, h⟩
  · exact ⟨_, h⟩
  · exact ⟨_, h⟩
  · exact ⟨_, h⟩
  · exact ⟨_, h⟩
  · rw [h]
    exact exists_exec i s

/-- Settles O44: a step is one event of the host or none, and each answers a next state. -/
theorem everyStepCompletes : Obligations.EveryStepCompletes := by
  intro s
  cases hp : s.pending with
  | nil => exact ⟨s, step_idle s hp⟩
  | cons e rest =>
    rw [step_of_pending s e rest hp]
    exact exists_hostEvent e _

end Sys2Proof.Machine
end

section
/-! SUPPORT. The register map, and LOADIDX through it (spec/20_memory.md R50, R55, spec/30_encoding.md R78). -/

namespace Sys2Proof.Machine

/-! ## The register map -/

/-- A register's address names it (R55). -/
theorem regAt_addrOf (r : Reg) : regAt (addrOf r) = some r := by
  cases r with
  | idx i => revert i; decide
  | bitb k => revert k; decide
  | buf k => revert k; decide
  | nidx | blen | buflen | cs | claim | status | cmd => rfl

/-- Settles O15: an address names a register only if it is that register's, and a register's address names it. -/
theorem eachRegisterHasOneAddress : Obligations.EachRegisterHasOneAddress := by
  refine fun a r => ⟨eq_addrOf_of_regAt, ?_⟩
  rintro rfl
  exact regAt_addrOf r

/-- The addresses that registers have (R55). -/
theorem toNat_addrOf_cases (r : Reg) :
    (addrOf r).toNat ≤ 0x1D ∨ (0x1F ≤ (addrOf r).toNat ∧ (addrOf r).toNat ≤ 0x40) ∨
      (0x48 ≤ (addrOf r).toNat ∧ (addrOf r).toNat ≤ 0x68) := by
  cases r with
  | idx i => simp only [addrOf, BitVec.toNat_ofNat]; omega
  | bitb k => simp only [addrOf, BitVec.toNat_ofNat]; omega
  | buf k => simp only [addrOf, BitVec.toNat_ofNat]; omega
  | nidx | blen | buflen | cs | claim | status | cmd => decide

/-- The other addresses are reserved (R55). -/
theorem regAt_eq_none {a : Addr}
    (h : a.toNat = 0x1E ∨ (0x41 ≤ a.toNat ∧ a.toNat ≤ 0x47) ∨ 0x69 ≤ a.toNat) : regAt a = none := by
  refine Option.eq_none_iff_forall_ne_some.mpr fun r hr => ?_
  have := toNat_addrOf_cases r
  rw [← eq_addrOf_of_regAt hr] at this
  omega

/-- Settles O14: a register's address names it, and the other addresses are reserved. -/
theorem addressMapIsTheTable : Obligations.AddressMapIsTheTable :=
  ⟨fun i => regAt_addrOf (.idx i), rfl, rfl, rfl, rfl, rfl, rfl, rfl, rfl, fun k => regAt_addrOf (.bitb k),
    fun _ h h' => regAt_eq_none (.inr (.inl ⟨h, h'⟩)), fun k => regAt_addrOf (.buf k),
    fun _ h => regAt_eq_none (.inr (.inr h)), fun _ _ _ => ⟨rfl, rfl, rfl, rfl, rfl, rfl, rfl, rfl, rfl, rfl⟩,
    hostReadOnly_iff⟩

/-! ## LOADIDX -/

/-- A run begins with the valid register write that the host makes first (R53). -/
theorem runsTo_wr {n : Nat} {r : Reg} {v : Word16} {s u : State} {es : List HostEvent}
    (hf : s.status.fault = false) (ha : addrOf r ≠ cmdAddr) (ho : r.hostReadOnly = false) (hv : v.toNat < 2 ^ r.width)
    (hr : runsTo n ((writeReg r v s).awaiting es) u) : runsTo (n + 1) (s.awaiting (wr r v :: es)) u := by
  have hstep : step (s.awaiting (wr r v :: es)) = .next (hostWriteReg (addrOf r) v (s.awaiting es)) :=
    step_writeReg ha rfl
  rw [hostWriteReg_valid (s := s.awaiting es) hf (regAt_addrOf r) ho hv] at hstep
  exact runsTo_succ (hstep.trans (congrArg _ (writeReg_withPending r v s es))) hr

/-- The host's writes of `vs` to IDXk and the registers after it (R78). -/
def idxWrites (vs : List Idx) (k : Nat) : List HostEvent :=
  (vs.zipIdx k).map fun p => .write (BitVec.ofNat 8 p.2) (p.1.setWidth 16)

theorem idxWrites_cons (v : Idx) (vs : List Idx) (k : Nat) (hk : k < 24) :
    idxWrites (v :: vs) k = wr (.idx ⟨k, hk⟩) (v.setWidth 16) :: idxWrites vs (k + 1) := rfl

theorem addrOf_idx_ne_cmdAddr (i : Fin 24) : addrOf (.idx i) ≠ cmdAddr := by
  revert i
  decide

/-- The index that a written value leaves in its register (R53). -/
theorem writeReg_idx (i : Fin 24) (v : Idx) (s : State) :
    writeReg (.idx i) (v.setWidth 16) s = { s with idx := s.idx.set i (some v) } := by
  simp [writeReg]

/-- The registers from IDXk on take the values, and the others stay. -/
theorem runsTo_idxWrites {s : State} (vs : List Idx) (k : Nat) (rest : List HostEvent) (hf : s.status.fault = false)
    (hk : k + vs.length ≤ 24) :
    ∃ x : Vector (Option Idx) 24,
      runsTo vs.length (s.awaiting (idxWrites vs k ++ rest)) (State.awaiting { s with idx := x } rest) ∧
      ∀ (j : Nat) (h : j < 24), x[j] = if k ≤ j ∧ j < k + vs.length then vs[j - k]? else s.idx[j] := by
  induction vs generalizing s k with
  | nil => exact ⟨s.idx, rfl, fun j h => (if_neg (by simp)).symm⟩
  | cons v vs ih =>
    rw [List.length_cons] at hk ⊢
    obtain ⟨x, hrun, hx⟩ := ih (s := { s with idx := s.idx.set k (some v) }) (k + 1) hf (by omega)
    refine ⟨x, ?_, fun j h => ?_⟩
    · rw [idxWrites_cons v vs k (by omega)]
      refine runsTo_wr hf (addrOf_idx_ne_cmdAddr _) rfl ?_ ?_
      · rw [BitVec.toNat_setWidth]
        exact (Nat.mod_le _ _).trans_lt v.isLt
      · rwa [writeReg_idx]
    · rw [hx j h]
      rcases Nat.lt_trichotomy j k with hlt | rfl | hgt
      · rw [if_neg (by omega), if_neg (by omega), Vector.getElem_set_ne _ _ (by omega)]
      · rw [if_neg (by omega), if_pos (by omega)]
        simp
      · have hcons : (v :: vs)[j - k]? = vs[j - (k + 1)]? := by
          rw [show j - k = j - (k + 1) + 1 by omega, List.getElem?_cons_succ]
        rw [hcons, Vector.getElem_set_ne _ _ (by omega)]
        exact if_congr (by omega) rfl rfl

theorem loadIdx_eq_some {vs : List Idx} {es : List HostEvent} (h : loadIdx vs = some es) :
    vs.length ≤ 24 ∧ es = idxWrites vs 0 ++ [wr .nidx (BitVec.ofNat 16 vs.length)] := by
  unfold loadIdx at h
  split at h <;> cases h
  next hlen => exact ⟨hlen, rfl⟩

/-- Settles O21: the run of the writes to IDX, then the write to NIDX. -/
theorem loadIdxLoadsItsValues : Obligations.LoadIdxLoadsItsValues := by
  intro s vs es rest hes hp hf
  obtain ⟨hlen, rfl⟩ := loadIdx_eq_some hes
  rw [List.append_assoc] at hp
  have hn : (BitVec.ofNat 16 vs.length).toNat = vs.length := by
    rw [BitVec.toNat_ofNat, Nat.mod_eq_of_lt (by omega)]
  have hnidx : ((BitVec.ofNat 16 vs.length).setWidth 5).toNat = vs.length := by
    rw [BitVec.toNat_setWidth, hn, Nat.mod_eq_of_lt (by omega)]
  obtain ⟨x, hrun, hx⟩ := runsTo_idxWrites vs 0 ([wr .nidx (BitVec.ofNat 16 vs.length)] ++ rest) hf (by omega)
  rw [awaiting_of_pending hp] at hrun
  have hlast := runsTo_wr_nidx (k := 0) (s := { s with idx := x }) (es := rest) (v := BitVec.ofNat 16 vs.length) hf
    (by omega) rfl
  exact ⟨_, runsTo_add hrun hlast, hnidx, fun k h => (hx k h).trans (if_congr (by omega) rfl rfl), rfl⟩

end Sys2Proof.Machine
end

section
/-! SUPPORT. What commands write and what they leave: every store and every buffer write is of all 33 bytes
(spec/10_state.md R29), and a command overwrites its own registers only (spec/70_reset_and_hazards.md R194). -/

namespace Sys2Proof.Machine

/-! ## Full writes -/

/-- A completed PACK, SPLIT or APPEND3 stores a string that fits (R100). -/
theorem exists_store_of_exec {i : Instr} {s t : State} (hi : i = .pack ∨ i = .split ∨ ∃ x, i = .append3 x)
    (hr : ready i s) (h : exec i s = .next t) : ∃ b u, b.length ≤ 264 ∧ t = store b u := by
  rcases hi with rfl | rfl | ⟨x, rfl⟩
  · cases (exec_pack_of_ready hr).symm.trans h
    obtain ⟨hn, -⟩ := hr
    exact ⟨packedString s, s, length_packedString_le hn, rfl⟩
  · obtain ⟨hl, hw⟩ := hr
    obtain ⟨b, hb⟩ := exists_load_of_storeWritten hl.le hw
    have hlen := length_of_load hb
    cases (exec_split_of_load hl hb).symm.trans h
    exact ⟨_, _, by rw [List.length_take]; omega, splitInto_eq_store b s⟩
  · obtain ⟨hl, hw⟩ := hr
    obtain ⟨b, hb⟩ := exists_load_of_storeWritten (by omega) hw
    have hlen := length_of_load hb
    cases (exec_append3_of_load hl hb).symm.trans h
    exact ⟨_, _, by rw [length_append_tailString]; omega, rfl⟩

/-- From BUFLEN on the buffer holds zero bytes (R105). -/
theorem buf_bytesLoaded_of_le (b : BitString) (s : State) (k : Nat) (hk : k < 33)
    (h : ceilDiv s.blen.toNat 8 ≤ k) : (bytesLoaded b s).buf[k] = some 0 := by
  simp [bytesLoaded, Nat.not_lt.mpr h]

/-- Settles O6: a store writes its string and zeros after it, and TOBYTES its bytes and zeros after them. -/
theorem fullStoreWrites : Obligations.FullStoreWrites := by
  refine ⟨fun i s t hi hr h => ?_, fun s t hr h => ?_⟩
  · obtain ⟨b, u, hb, rfl⟩ := exists_store_of_exec hi hr h
    rw [blen_store b u hb]
    refine ⟨hb, store_written b u, fun p hp hp' => ?_⟩
    rw [fileBit_store b u hb p hp', List.getD_eq_default _ _ hp]
  · obtain ⟨hl, hw⟩ := hr
    obtain ⟨b, hb⟩ := exists_load_of_storeWritten hl hw
    cases (exec_tobytes_of_load hb).symm.trans h
    rw [buflen_bytesLoaded b hl]
    exact ⟨by unfold ceilDiv; omega, fun k hk => by simp [bytesLoaded], buf_bytesLoaded_of_le b s⟩

/-! ## Registers left as they were -/

section
variable {r : Reg} (s : State)

theorem readReg_store (b : BitString) (hl : r ≠ .blen) (hb : ∀ k, r ≠ .bitb k) :
    readReg r (store b s) = readReg r s := by
  cases r with
  | blen => exact absurd rfl hl
  | bitb k => exact absurd rfl (hb k)
  | _ => rfl

theorem readReg_writeIndices (n : Nat) (b : BitString) (hn : r ≠ .nidx) (hi : ∀ k : Fin 24, k.val < n → r ≠ .idx k) :
    readReg r (writeIndices n b s) = readReg r s := by
  cases r with
  | nidx => exact absurd rfl hn
  | idx k =>
    have hk : ¬ k.val < n := fun h => hi k h rfl
    simp [readReg, writeIndices, hk]
  | _ => rfl

theorem readReg_writeBytes (n : Nat) (b : BitString) (hl : r ≠ .buflen) (hb : ∀ k, r ≠ .buf k) :
    readReg r (writeBytes n b s) = readReg r s := by
  cases r with
  | buflen => exact absurd rfl hl
  | buf k => exact absurd rfl (hb k)
  | _ => rfl

theorem readReg_withClaim (c : Option Byte) (hc : r ≠ .claim) : readReg r { s with claim := c } = readReg r s := by
  cases r with
  | claim => exact absurd rfl hc
  | _ => rfl

theorem readReg_withCs (c : Option Byte) (hc : r ≠ .cs) : readReg r { s with cs := c } = readReg r s := by
  cases r with
  | cs => exact absurd rfl hc
  | _ => rfl

theorem readReg_setMatch (m : Bool) (hr : r ≠ .status) : readReg r (s.setMatch m) = readReg r s := by
  cases r with
  | status => exact absurd rfl hr
  | _ => rfl

theorem readReg_setIdx (k : Fin 24) (x : Option Idx) (hk : r ≠ .idx k) :
    readReg r { s with idx := s.idx.set k x } = readReg r s := by
  cases r with
  | idx j =>
    have hjk : k.val ≠ j.val := fun h => hk (congrArg Reg.idx (Fin.ext h.symm))
    simp [readReg, hjk]
  | _ => rfl

end

/-- D names the register of its number (R75). -/
theorem val_of_destReg {d : BitVec 5} {k : Fin 24} (h : destReg d = some k) : k.val = d.toNat := by
  unfold destReg at h
  split at h <;> cases h
  rfl

/-- The update that a command makes leaves every register out of its row of R194. -/
theorem readReg_of_plan {i : Instr} {s : State} {f : State → State} {r : Reg} (h : plan i s = .ok f)
    (ho : ¬ overwrites i s r) (hr : r ≠ .status) : readReg r (f s) = readReg r s := by
  cases i with
  | pack =>
    obtain ⟨xs, rfl⟩ := update_of_checkedRead h
    simp only [overwrites, not_or, not_exists] at ho
    obtain ⟨hlen, helem⟩ := ho
    exact readReg_store s _ hlen helem
  | unpack =>
    obtain ⟨b, rfl⟩ := update_of_checkedRead h
    simp only [overwrites, not_or, not_exists, not_and] at ho
    obtain ⟨hlen, helem⟩ := ho
    exact readReg_writeIndices s _ b hlen helem
  | tobytes =>
    obtain ⟨b, rfl⟩ := update_of_checkedRead h
    simp only [overwrites, not_or, not_exists] at ho
    obtain ⟨hlen, helem⟩ := ho
    exact readReg_writeBytes s _ b hlen helem
  | split =>
    obtain ⟨b, rfl⟩ := update_of_checkedRead h
    simp only [overwrites, not_or, not_exists] at ho
    obtain ⟨hclaim, hblen, hbitb⟩ := ho
    exact (readReg_store _ _ hblen hbitb).trans (readReg_withClaim s _ hclaim)
  | append3 x =>
    obtain ⟨b, rfl⟩ := update_of_checkedRead h
    simp only [overwrites, not_or, not_exists] at ho
    obtain ⟨hlen, helem⟩ := ho
    exact readReg_store s _ hlen helem
  | join d x =>
    simp only [overwrites, not_exists, not_and] at ho
    simp only [plan] at h
    split at h <;> cases h
    next k c hd hc => exact readReg_setIdx s k _ (ho k (val_of_destReg hd))
  | csum =>
    obtain ⟨bs, rfl⟩ := update_of_read h
    exact readReg_withCs s _ ho
  | verify =>
    obtain ⟨c, claim, rfl⟩ := update_of_verify h
    exact (readReg_setMatch _ _ hr).trans (readReg_withCs s _ ho)

theorem readReg_exec {i : Instr} {s t : State} {r : Reg} (h : exec i s = .next t) (ho : ¬ overwrites i s r)
    (hr : r ≠ .status) : readReg r t = readReg r s := by
  rw [exec_eq_plan] at h
  cases hp : plan i s with
  | error c =>
    rw [hp] at h
    cases h
    exact readReg_raise hr c s
  | ok f =>
    rw [hp] at h
    cases h
    exact readReg_of_plan hp ho hr

theorem exec_host {i : Instr} {s t : State} (h : exec i s = .next t) : t.pending = s.pending ∧ t.reads = s.reads := by
  rcases exec_outcome i s with ⟨c, -, e⟩ | ⟨-, u, e, -, -, hp, hr⟩
  · cases e.symm.trans h
    exact ⟨raise_pending s c, raise_reads s c⟩
  · cases e.symm.trans h
    exact ⟨hp, hr⟩

theorem wellFormed_of_ready {i : Instr} {s : State} (h : ready i s) : i.wellFormed = true := by
  cases i with
  | join d x =>
    obtain ⟨hd, -⟩ := h
    exact decide_eq_true hd
  | _ => rfl

/-- A command whose operands are in place raises no fault (R192). -/
theorem exec_fault_of_ready {i : Instr} {s t : State} (hr : ready i s) (h : exec i s = .next t) :
    t.status.fault = s.status.fault ∧ t.status.fcode = s.status.fcode := by
  rcases exec_of_wellFormed s (wellFormed_of_ready hr) with ⟨-, u, e, hu⟩ | ⟨hn, -⟩
  · cases e.symm.trans h
    rcases exec_status h with (he | ⟨hf, c, -, he⟩) | ⟨-, hfault, hfcode⟩
    · simp [he]
    · simp [he, hf] at hu
    · exact ⟨hfault, hfcode⟩
  · exact absurd hr hn

/-- Settles O47: by the update that a command makes, or the fault it raises in its starting state. -/
theorem commandsOverwriteOnlyTheirRegisters : Obligations.CommandsOverwriteOnlyTheirRegisters :=
  fun _ _ _ h => ⟨fun _ => readReg_exec h, fun hi => exec_matched hi h, fun hr => exec_fault_of_ready hr h,
    exec_host h⟩

end Sys2Proof.Machine
end
